-- ==== Sys2Proof/Word.lean ====
section
/-! DEFINITION. The words BCPID's spec treats as bits, by width (spec 00_scope.md R5, 20_memory.md R50, 30_encoding.md R80).
Bit i of a word is bit i of its bit vector, bit 0 the least significant (R5). -/

namespace Sys2Proof

/-- A 32-bit register or data word (R5, R50). -/
abbrev Word := BitVec 32

/-- A 16-bit field: PWM, ADCRAW, a raw conversion result (R32, R35, R42). -/
abbrev Half := BitVec 16

/-- A 6-bit byte offset in the register space (R50). -/
abbrev Offset := BitVec 6

/-- A 39-bit transaction word T = W, A[5:0], D[31:0] (R80). -/
abbrev Txn := BitVec 39

/-- The bit pattern of a binary32 value: sign [31], exponent [30:23], fraction [22:0] (R7). -/
abbrev F32 := BitVec 32

end Sys2Proof
end

