-- ==== Sys2Proof/Syntax.lean ====
section
/-! DEFINITION. BCPID's instructions: one constructor per row of spec/opcode_table.json, in the table's order. Every bit of
the 39-bit word that the row does not fix is an operand, the ignored ones too (DESIGN CHOICE, safe: log entry 15). -/

namespace Sys2Proof

/-- A host transaction (30_encoding.md R80, R82). `ign` is D[31:4] of a CMD write (R84), `d` is D[31:0], `op` the
command code D[3:0] and `a` the offset A[5:0] where the row leaves bits of it open. -/
inductive Instr where
  /-- NOP (43_register_access.md R164) -/
  | nop (ign : BitVec 28)
  /-- TICK (41_pid.md R120) -/
  | tick (ign : BitVec 28)
  /-- SAMPLE (40_sampler.md R102) -/
  | sample (ign : BitVec 28)
  /-- RSV.CMD.3 (R180) -/
  | rsvCmd3 (ign : BitVec 28)
  /-- RSV.CMD.4-7: the codes with D[3:2] = 01 (R180) -/
  | rsvCmd4to7 (op : BitVec 4) (ign : BitVec 28)
  /-- RSV.CMD.8-F: the codes with D[3] = 1 (R180) -/
  | rsvCmd8toF (op : BitVec 4) (ign : BitVec 28)
  /-- WR.TARGET (R160) -/
  | wrTarget (d : Word)
  /-- WR.KP (R161) -/
  | wrKp (d : Word)
  /-- WR.KI (R162) -/
  | wrKi (d : Word)
  /-- WR.KD (R163) -/
  | wrKd (d : Word)
  /-- RSV.WR.MEAS, and so on to RSV.WR.3C: writes of read-only or reserved offsets (R182) -/
  | rsvWrMeas (d : Word)
  | rsvWrErr (d : Word)
  | rsvWrPerr (d : Word)
  | rsvWrInteg (d : Word)
  | rsvWrDeriv (d : Word)
  | rsvWrDuty (d : Word)
  | rsvWrPwm (d : Word)
  | rsvWrSampv (d : Word)
  | rsvWrAdcraw (d : Word)
  | rsvWrTickcnt (d : Word)
  | rsvWr3C (d : Word)
  /-- RSV.WR.MISALIGNED.A0: A[0] = 1 (R182) -/
  | rsvWrMisalignedA0 (a : Offset) (d : Word)
  /-- RSV.WR.MISALIGNED.A10: A[1:0] = 10 (R182) -/
  | rsvWrMisalignedA10 (a : Offset) (d : Word)
  /-- RD.CMD (R181) -/
  | rdCmd (d : Word)
  /-- RD.TARGET, and so on to RD.TICKCNT (R166 to R179) -/
  | rdTarget (d : Word)
  | rdKp (d : Word)
  | rdKi (d : Word)
  | rdKd (d : Word)
  | rdMeas (d : Word)
  | rdErr (d : Word)
  | rdPerr (d : Word)
  | rdInteg (d : Word)
  | rdDeriv (d : Word)
  | rdDuty (d : Word)
  | rdPwm (d : Word)
  | rdSampv (d : Word)
  | rdAdcraw (d : Word)
  | rdTickcnt (d : Word)
  /-- RSV.RD.3C (R181) -/
  | rsvRd3C (d : Word)
  /-- RSV.RD.MISALIGNED.A0: A[0] = 1 (R181) -/
  | rsvRdMisalignedA0 (a : Offset) (d : Word)
  /-- RSV.RD.MISALIGNED.A10: A[1:0] = 10 (R181) -/
  | rsvRdMisalignedA10 (a : Offset) (d : Word)
  deriving DecidableEq, Repr

end Sys2Proof
end

