-- ==== Sys2Proof/WellFormed.lean ====
section
/-! DEFINITION. Which instruction terms are instructions: the operand fields that share bits with a row's fixed bits must
agree with them (30_encoding.md R82). Every other operand may hold any value of its width. -/

namespace Sys2Proof

/-- The fixed bits inside an operand field agree with the row (R82). -/
def wellFormed : Instr → Bool
  | .rsvCmd4to7 op _ => op.extractLsb' 2 2 == 0b01#2
  | .rsvCmd8toF op _ => op.getLsbD 3
  | .rsvWrMisalignedA0 a _ => a.getLsbD 0
  | .rsvWrMisalignedA10 a _ => a.extractLsb' 0 2 == 0b10#2
  | .rsvRdMisalignedA0 a _ => a.getLsbD 0
  | .rsvRdMisalignedA10 a _ => a.extractLsb' 0 2 == 0b10#2
  | .nop _ | .tick _ | .sample _ | .rsvCmd3 _ => true
  | .wrTarget _ | .wrKp _ | .wrKi _ | .wrKd _ => true
  | .rsvWrMeas _ | .rsvWrErr _ | .rsvWrPerr _ | .rsvWrInteg _ | .rsvWrDeriv _ | .rsvWrDuty _ => true
  | .rsvWrPwm _ | .rsvWrSampv _ | .rsvWrAdcraw _ | .rsvWrTickcnt _ | .rsvWr3C _ => true
  | .rdCmd _ | .rdTarget _ | .rdKp _ | .rdKi _ | .rdKd _ | .rdMeas _ | .rdErr _ | .rdPerr _ => true
  | .rdInteg _ | .rdDeriv _ | .rdDuty _ | .rdPwm _ | .rdSampv _ | .rdAdcraw _ | .rdTickcnt _ => true
  | .rsvRd3C _ => true

end Sys2Proof
end

