-- ==== Sys2Proof/Decode.lean ====
section
/-! DEFINITION. The decoder and the encoder of the 39-bit transaction word (30_encoding.md R80 to R84), and the opcode
table's rows as mask and pattern (R82). The decoder is total: every 39-bit word is some row's. -/

namespace Sys2Proof

/-! The fields of T (R80). -/

def txnW (t : Txn) : Bool := t.getLsbD 38
def txnA (t : Txn) : Offset := t.extractLsb' 32 6
def txnD (t : Txn) : Word := t.extractLsb' 0 32

/-- T = W, A[5:0], D[31:0] (R80). -/
def mkTxn (w : Bool) (a : Offset) (d : Word) : Txn := BitVec.ofBool w ++ (a ++ d)

/-- The command code D[3:0] and the ignored bits D[31:4] of a CMD write (R81, R84). -/
def cmdOp (d : Word) : BitVec 4 := d.extractLsb' 0 4
def cmdIgn (d : Word) : BitVec 28 := d.extractLsb' 4 28

/-- The data word of a CMD write. -/
def mkCmd (op : BitVec 4) (ign : BitVec 28) : Word := ign ++ op

/-- A write to CMD, decoded by D[3:0] (R82, R84). -/
def decodeCommand (d : Word) : Instr :=
  let op := cmdOp d
  let ign := cmdIgn d
  if op = 0x0#4 then .nop ign
  else if op = 0x1#4 then .tick ign
  else if op = 0x2#4 then .sample ign
  else if op = 0x3#4 then .rsvCmd3 ign
  else if op.getLsbD 3 then .rsvCmd8toF op ign
  else .rsvCmd4to7 op ign

/-- A write, decoded by A[5:0] (R82). -/
def decodeWrite (a : Offset) (d : Word) : Instr :=
  if a.getLsbD 0 then .rsvWrMisalignedA0 a d
  else if a.getLsbD 1 then .rsvWrMisalignedA10 a d
  else if a = 0x00#6 then decodeCommand d
  else if a = 0x04#6 then .wrTarget d
  else if a = 0x08#6 then .wrKp d
  else if a = 0x0C#6 then .wrKi d
  else if a = 0x10#6 then .wrKd d
  else if a = 0x14#6 then .rsvWrMeas d
  else if a = 0x18#6 then .rsvWrErr d
  else if a = 0x1C#6 then .rsvWrPerr d
  else if a = 0x20#6 then .rsvWrInteg d
  else if a = 0x24#6 then .rsvWrDeriv d
  else if a = 0x28#6 then .rsvWrDuty d
  else if a = 0x2C#6 then .rsvWrPwm d
  else if a = 0x30#6 then .rsvWrSampv d
  else if a = 0x34#6 then .rsvWrAdcraw d
  else if a = 0x38#6 then .rsvWrTickcnt d
  else .rsvWr3C d

/-- A read, decoded by A[5:0]; D is don't care (R82). -/
def decodeRead (a : Offset) (d : Word) : Instr :=
  if a.getLsbD 0 then .rsvRdMisalignedA0 a d
  else if a.getLsbD 1 then .rsvRdMisalignedA10 a d
  else if a = 0x00#6 then .rdCmd d
  else if a = 0x04#6 then .rdTarget d
  else if a = 0x08#6 then .rdKp d
  else if a = 0x0C#6 then .rdKi d
  else if a = 0x10#6 then .rdKd d
  else if a = 0x14#6 then .rdMeas d
  else if a = 0x18#6 then .rdErr d
  else if a = 0x1C#6 then .rdPerr d
  else if a = 0x20#6 then .rdInteg d
  else if a = 0x24#6 then .rdDeriv d
  else if a = 0x28#6 then .rdDuty d
  else if a = 0x2C#6 then .rdPwm d
  else if a = 0x30#6 then .rdSampv d
  else if a = 0x34#6 then .rdAdcraw d
  else if a = 0x38#6 then .rdTickcnt d
  else .rsvRd3C d

/-- The instruction a transaction word stands for (R82). -/
def decode (t : Txn) : Instr :=
  if txnW t then decodeWrite (txnA t) (txnD t) else decodeRead (txnA t) (txnD t)

/-- Why a number is no instruction: the one reason there is, since R82's rows cover every 39-bit word. -/
inductive DecodeError where
  /-- the number has a bit above bit 38, so it is no transaction word (R80) -/
  | notATransactionWord
  deriving DecidableEq, Repr

/-- The decoder on any number: rejected by name where it is no 39-bit word. -/
def decodeNat (n : Nat) : Except DecodeError Instr :=
  if n < 2 ^ 39 then .ok (decode (BitVec.ofNat 39 n)) else .error .notATransactionWord

/-- The decoder on a word numbered as spec/opcode_table.json numbers it: BCPID's word is one 39-bit number, so the
table's bit i is bit i of T. Bits above nbits are 0. -/
def decodeTableWord (nbits w : Nat) : Option Instr :=
  match decodeNat (w % 2 ^ nbits) with
  | .ok i => some i
  | .error _ => none

/-- The word of an instruction (R80, R82). -/
def encode : Instr → Txn
  | .nop ign => mkTxn true 0x00#6 (mkCmd 0x0#4 ign)
  | .tick ign => mkTxn true 0x00#6 (mkCmd 0x1#4 ign)
  | .sample ign => mkTxn true 0x00#6 (mkCmd 0x2#4 ign)
  | .rsvCmd3 ign => mkTxn true 0x00#6 (mkCmd 0x3#4 ign)
  | .rsvCmd4to7 op ign => mkTxn true 0x00#6 (mkCmd op ign)
  | .rsvCmd8toF op ign => mkTxn true 0x00#6 (mkCmd op ign)
  | .wrTarget d => mkTxn true 0x04#6 d
  | .wrKp d => mkTxn true 0x08#6 d
  | .wrKi d => mkTxn true 0x0C#6 d
  | .wrKd d => mkTxn true 0x10#6 d
  | .rsvWrMeas d => mkTxn true 0x14#6 d
  | .rsvWrErr d => mkTxn true 0x18#6 d
  | .rsvWrPerr d => mkTxn true 0x1C#6 d
  | .rsvWrInteg d => mkTxn true 0x20#6 d
  | .rsvWrDeriv d => mkTxn true 0x24#6 d
  | .rsvWrDuty d => mkTxn true 0x28#6 d
  | .rsvWrPwm d => mkTxn true 0x2C#6 d
  | .rsvWrSampv d => mkTxn true 0x30#6 d
  | .rsvWrAdcraw d => mkTxn true 0x34#6 d
  | .rsvWrTickcnt d => mkTxn true 0x38#6 d
  | .rsvWr3C d => mkTxn true 0x3C#6 d
  | .rsvWrMisalignedA0 a d => mkTxn true a d
  | .rsvWrMisalignedA10 a d => mkTxn true a d
  | .rdCmd d => mkTxn false 0x00#6 d
  | .rdTarget d => mkTxn false 0x04#6 d
  | .rdKp d => mkTxn false 0x08#6 d
  | .rdKi d => mkTxn false 0x0C#6 d
  | .rdKd d => mkTxn false 0x10#6 d
  | .rdMeas d => mkTxn false 0x14#6 d
  | .rdErr d => mkTxn false 0x18#6 d
  | .rdPerr d => mkTxn false 0x1C#6 d
  | .rdInteg d => mkTxn false 0x20#6 d
  | .rdDeriv d => mkTxn false 0x24#6 d
  | .rdDuty d => mkTxn false 0x28#6 d
  | .rdPwm d => mkTxn false 0x2C#6 d
  | .rdSampv d => mkTxn false 0x30#6 d
  | .rdAdcraw d => mkTxn false 0x34#6 d
  | .rdTickcnt d => mkTxn false 0x38#6 d
  | .rsvRd3C d => mkTxn false 0x3C#6 d
  | .rsvRdMisalignedA0 a d => mkTxn false a d
  | .rsvRdMisalignedA10 a d => mkTxn false a d

/-- A row of the opcode table: a word T is the row's when (T &&& mask) = pattern (R82). -/
structure Row where
  mnemonic : String
  pattern : Txn
  mask : Txn
  deriving DecidableEq, Repr

/-- A word is the row's (R82). -/
def rowSelects (r : Row) (t : Txn) : Bool := t &&& r.mask == r.pattern

/-- The table's row of an instruction, its pattern and mask as spec/opcode_table.json has them (R82). -/
def rowOf : Instr → Row
  | .nop _ => ⟨"NOP", 0x4000000000#39, 0x7F0000000F#39⟩
  | .tick _ => ⟨"TICK", 0x4000000001#39, 0x7F0000000F#39⟩
  | .sample _ => ⟨"SAMPLE", 0x4000000002#39, 0x7F0000000F#39⟩
  | .rsvCmd3 _ => ⟨"RSV.CMD.3", 0x4000000003#39, 0x7F0000000F#39⟩
  | .rsvCmd4to7 _ _ => ⟨"RSV.CMD.4-7", 0x4000000004#39, 0x7F0000000C#39⟩
  | .rsvCmd8toF _ _ => ⟨"RSV.CMD.8-F", 0x4000000008#39, 0x7F00000008#39⟩
  | .wrTarget _ => ⟨"WR.TARGET", 0x4400000000#39, 0x7F00000000#39⟩
  | .wrKp _ => ⟨"WR.KP", 0x4800000000#39, 0x7F00000000#39⟩
  | .wrKi _ => ⟨"WR.KI", 0x4C00000000#39, 0x7F00000000#39⟩
  | .wrKd _ => ⟨"WR.KD", 0x5000000000#39, 0x7F00000000#39⟩
  | .rsvWrMeas _ => ⟨"RSV.WR.MEAS", 0x5400000000#39, 0x7F00000000#39⟩
  | .rsvWrErr _ => ⟨"RSV.WR.ERR", 0x5800000000#39, 0x7F00000000#39⟩
  | .rsvWrPerr _ => ⟨"RSV.WR.PERR", 0x5C00000000#39, 0x7F00000000#39⟩
  | .rsvWrInteg _ => ⟨"RSV.WR.INTEG", 0x6000000000#39, 0x7F00000000#39⟩
  | .rsvWrDeriv _ => ⟨"RSV.WR.DERIV", 0x6400000000#39, 0x7F00000000#39⟩
  | .rsvWrDuty _ => ⟨"RSV.WR.DUTY", 0x6800000000#39, 0x7F00000000#39⟩
  | .rsvWrPwm _ => ⟨"RSV.WR.PWM", 0x6C00000000#39, 0x7F00000000#39⟩
  | .rsvWrSampv _ => ⟨"RSV.WR.SAMPV", 0x7000000000#39, 0x7F00000000#39⟩
  | .rsvWrAdcraw _ => ⟨"RSV.WR.ADCRAW", 0x7400000000#39, 0x7F00000000#39⟩
  | .rsvWrTickcnt _ => ⟨"RSV.WR.TICKCNT", 0x7800000000#39, 0x7F00000000#39⟩
  | .rsvWr3C _ => ⟨"RSV.WR.3C", 0x7C00000000#39, 0x7F00000000#39⟩
  | .rsvWrMisalignedA0 _ _ => ⟨"RSV.WR.MISALIGNED.A0", 0x4100000000#39, 0x4100000000#39⟩
  | .rsvWrMisalignedA10 _ _ => ⟨"RSV.WR.MISALIGNED.A10", 0x4200000000#39, 0x4300000000#39⟩
  | .rdCmd _ => ⟨"RD.CMD", 0x0000000000#39, 0x7F00000000#39⟩
  | .rdTarget _ => ⟨"RD.TARGET", 0x0400000000#39, 0x7F00000000#39⟩
  | .rdKp _ => ⟨"RD.KP", 0x0800000000#39, 0x7F00000000#39⟩
  | .rdKi _ => ⟨"RD.KI", 0x0C00000000#39, 0x7F00000000#39⟩
  | .rdKd _ => ⟨"RD.KD", 0x1000000000#39, 0x7F00000000#39⟩
  | .rdMeas _ => ⟨"RD.MEAS", 0x1400000000#39, 0x7F00000000#39⟩
  | .rdErr _ => ⟨"RD.ERR", 0x1800000000#39, 0x7F00000000#39⟩
  | .rdPerr _ => ⟨"RD.PERR", 0x1C00000000#39, 0x7F00000000#39⟩
  | .rdInteg _ => ⟨"RD.INTEG", 0x2000000000#39, 0x7F00000000#39⟩
  | .rdDeriv _ => ⟨"RD.DERIV", 0x2400000000#39, 0x7F00000000#39⟩
  | .rdDuty _ => ⟨"RD.DUTY", 0x2800000000#39, 0x7F00000000#39⟩
  | .rdPwm _ => ⟨"RD.PWM", 0x2C00000000#39, 0x7F00000000#39⟩
  | .rdSampv _ => ⟨"RD.SAMPV", 0x3000000000#39, 0x7F00000000#39⟩
  | .rdAdcraw _ => ⟨"RD.ADCRAW", 0x3400000000#39, 0x7F00000000#39⟩
  | .rdTickcnt _ => ⟨"RD.TICKCNT", 0x3800000000#39, 0x7F00000000#39⟩
  | .rsvRd3C _ => ⟨"RSV.RD.3C", 0x3C00000000#39, 0x7F00000000#39⟩
  | .rsvRdMisalignedA0 _ _ => ⟨"RSV.RD.MISALIGNED.A0", 0x0100000000#39, 0x4100000000#39⟩
  | .rsvRdMisalignedA10 _ _ => ⟨"RSV.RD.MISALIGNED.A10", 0x0200000000#39, 0x4300000000#39⟩

end Sys2Proof
end

