-- ==== Sys2Proof/Config.lean ====
section
/-! DEFINITION. What an implementation of BCPID fixes: the parameter set of 00_scope.md R3 and its reference values (BCPID-1),
the host's own reference parameters (30_encoding.md R86, R88, R89), and the free values, which have no body. -/

namespace Sys2Proof

/-- The parameters a BCPID model takes as arguments (00_scope.md R3), binary32 ones by their bit pattern.
Which sets are accepted is R4 (Machine/Parameters.lean). -/
structure Params where
  tickInterval : F32
  dutyMin : F32
  dutyMax : F32
  dutyReset : F32
  dutyInit : F32
  integResetOnSat : Bool
  targetMin : Word
  targetMax : Word
  targetDefault : Word
  kpMin : F32
  kpMax : F32
  kiMin : F32
  kiMax : F32
  kdMin : F32
  kdMax : F32
  kpDefault : F32
  kiDefault : F32
  kdDefault : F32
  rawMax : Half
  vRef : F32
  divK : F32
  pwmTop : Half
  deriving DecidableEq, Repr

/-- The reference configuration BCPID-1 (R3, column "reference configuration"). -/
def Config.bcpid1 : Params where
  tickInterval := 0x3C23D70A#32
  dutyMin := 0x3DCCCCCD#32
  dutyMax := 0x3F733333#32
  dutyReset := 0x3F19999A#32
  dutyInit := 0x3F19999A#32
  integResetOnSat := false
  targetMin := 2#32
  targetMax := 15#32
  targetDefault := 10#32
  kpMin := 0x00000000#32
  kpMax := 0x3C23D70A#32
  kiMin := 0x00000000#32
  kiMax := 0x3DCCCCCD#32
  kdMin := 0x00000000#32
  kdMax := 0x3C23D70A#32
  kpDefault := 0x3B03126F#32
  kiDefault := 0x3CA3D70A#32
  kdDefault := 0x38D1B717#32
  rawMax := 1023#16
  vRef := 0x40A00000#32
  divK := 0x3E800000#32
  pwmTop := 255#16

/-- The parameters of the reference HOST, outside BCPID: the channel's multipliers (R86) and the trim bounds (R88, R89). -/
structure HostParams where
  scaleP : F32
  scaleI : F32
  scaleD : F32
  trimLow : F32
  trimHigh : F32
  deriving DecidableEq, Repr

/-- The reference host's values (R86, R88, R89). -/
def Config.referenceHost : HostParams where
  scaleP := 0x38D1B717#32
  scaleI := 0x3727C5AC#32
  scaleD := 0x38D1B717#32
  trimLow := 0x40000000#32
  trimHigh := 0x41700000#32

/-! The free values: constants with no body, so that nothing can be proved of what they are. Each is applied to the
counter State.freeUsed (or to the operand it depends on), so that every use is a fresh value. -/

/-- ADC_DRAW (R12, D14): the raw result of a conversion that adcIn does not give. DESIGN CHOICE, safe: log entry 2. -/
opaque Config.adcDraw : Nat → Half

/-- HOST_ORDER (R205, D24, U8): the arbiter's choice among waiting hosts that orderIn does not give.
DESIGN CHOICE, safe: log entry 4. -/
opaque Config.hostOrder : Nat → Nat

/-- The data of a host read in progress when reset is asserted (R232, U6: any value). DESIGN CHOICE, safe: log entry 7. -/
opaque Config.abortedReadData : Nat → Word

/-- What the PWM field would receive for a duty fraction whose product is not finite or does not fit 16 bits; the spec
states PwmValue only for duties in band (R150), where this never occurs. DESIGN CHOICE, safe: log entry 8. -/
opaque Config.pwmUnstated : F32 → Half

end Sys2Proof
end

