-- ==== Sys2Proof/Machine/Binary32.lean ====
section
/-! DEFINITION. IEEE 754 binary32 arithmetic on bit patterns (00_scope.md R7, R8, R9, R11). A finite value is held exactly
as an integer count of UNITS of 2^-149, the smallest positive binary32; every operation computes its exact result as a
quotient of integers and rounds it once (roundMag). PRESUMED, unsafe: the IEEE 754-2008 results that R8 names and does
not print (signs of zeros, infinities, invalid operations), log entry 10. -/

namespace Sys2Proof.Machine

/-- The canonical quiet NaN, the only NaN an operation returns (R9). -/
def canonicalNaN : F32 := 0x7FC00000#32

/-- 2^149: how many units make 1.0. -/
def oneUnits : Nat := 2 ^ 149

/-- The magnitude pattern of infinity: exponent field 255, fraction 0. -/
def infMag : Nat := 0x7F800000

/-- The sign bit [31]. -/
def f32Sign (x : F32) : Bool := x.getLsbD 31

/-- The magnitude pattern [30:0] as a number. -/
def f32Mag (x : F32) : Nat := x.toNat % 2 ^ 31

def f32IsNaN (x : F32) : Bool := decide (infMag < f32Mag x)

def f32IsInf (x : F32) : Bool := decide (f32Mag x = infMag)

/-- Neither a NaN nor an infinity: exponent field below 255. -/
def f32IsFinite (x : F32) : Bool := decide (f32Mag x < infMag)

/-- A zero of either sign. -/
def f32IsZero (x : F32) : Bool := decide (f32Mag x = 0)

/-- The units of a finite magnitude pattern: a subnormal's fraction, or the significand with its hidden bit, shifted by
the exponent field less one (R7). -/
def unitsOfMag (m : Nat) : Nat :=
  if m < 2 ^ 23 then m else (m % 2 ^ 23 + 2 ^ 23) * 2 ^ (m / 2 ^ 23 - 1)

/-- |x| in units, for a finite x. -/
def f32Units (x : F32) : Nat := unitsOfMag (f32Mag x)

/-- x in units, for a finite x: its exact value is this integer times 2^-149. -/
def f32Int (x : F32) : Int := if f32Sign x then -(f32Units x : Int) else (f32Units x : Int)

/-- The pattern with sign s and magnitude pattern m. -/
def f32Pack (s : Bool) (m : Nat) : F32 := BitVec.ofNat 32 ((if s then 2 ^ 31 else 0) + m)

/-- num/den to the nearest integer, ties to even. -/
def roundEven (num den : Nat) : Nat :=
  let q := num / den
  let r := num % den
  if 2 * r < den then q
  else if den < 2 * r then q + 1
  else q + q % 2

/-- The power of two that separates the binary32 values around num/den units: 0 in the subnormal and lowest normal range,
else what leaves 24 significant bits. -/
def roundShift (num den : Nat) : Nat := Nat.log2 (num / den) - 23

/-- The magnitude pattern nearest to num/den units, ties to even, subnormals kept, overflow to infinity (R8). The
significand n counts steps of 2^k, and adding k exponent steps to it also carries a round-up into the exponent. -/
def roundMag (num den : Nat) : Nat :=
  let k := roundShift num den
  min (roundEven num (den * 2 ^ k) + k * 2 ^ 23) infMag

/-- The binary32 nearest to the exact value ±num/den units. -/
def f32Round (s : Bool) (num den : Nat) : F32 := f32Pack s (roundMag num den)

/-- The infinity of sign s. -/
def f32Inf (s : Bool) : F32 := f32Pack s infMag

/-- The zero of sign s. -/
def f32Zero (s : Bool) : F32 := f32Pack s 0

/-- The sum of two finite values: an exact zero is +0, but the sum of two negative zeros is -0. -/
def f32AddFinite (a b : F32) : F32 :=
  let v := f32Int a + f32Int b
  if v = 0 then f32Zero (f32Sign a && f32Sign b)
  else f32Round (decide (v < 0)) v.natAbs 1

/-- f32_add (R8, R9): infinities of opposite signs have no sum. -/
def f32Add (a b : F32) : F32 :=
  if f32IsNaN a || f32IsNaN b then canonicalNaN
  else if f32IsInf a then
    (if f32IsInf b && (f32Sign a != f32Sign b) then canonicalNaN else f32Inf (f32Sign a))
  else if f32IsInf b then f32Inf (f32Sign b)
  else f32AddFinite a b

/-- The pattern with its sign bit inverted. -/
def f32Neg (x : F32) : F32 := x ^^^ 0x80000000#32

/-- f32_sub (R8, R9): a - b is a + (-b). -/
def f32Sub (a b : F32) : F32 := f32Add a (f32Neg b)

/-- f32_mul (R8, R9): the sign is the product's, infinity times zero is invalid. -/
def f32Mul (a b : F32) : F32 :=
  let s := f32Sign a != f32Sign b
  if f32IsNaN a || f32IsNaN b then canonicalNaN
  else if f32IsInf a || f32IsInf b then
    (if f32IsZero a || f32IsZero b then canonicalNaN else f32Inf s)
  else f32Round s (f32Units a * f32Units b) oneUnits

/-- f32_div (R8, R9): 0/0 and infinity/infinity are invalid, a finite nonzero value over zero is an infinity. -/
def f32Div (a b : F32) : F32 :=
  let s := f32Sign a != f32Sign b
  if f32IsNaN a || f32IsNaN b then canonicalNaN
  else if f32IsInf a then (if f32IsInf b then canonicalNaN else f32Inf s)
  else if f32IsInf b then f32Zero s
  else if f32IsZero b then (if f32IsZero a then canonicalNaN else f32Inf s)
  else f32Round s (f32Units a * oneUnits) (f32Units b)

/-- i2f (R11): the binary32 nearest to an integer, ties to even. -/
def i2f (n : Int) : F32 := f32Round (decide (n < 0)) (n.natAbs * oneUnits) 1

/-- The binary32 nearest to ±num/den, the reading of a decimal (R3, R85, R90). -/
def f32OfRatio (s : Bool) (num den : Nat) : F32 := f32Round s (num * oneUnits) den

/-- round_haz (R11): the integer nearest to a finite x, ties away from zero; the spec defines it for no other x. -/
def roundHaz (x : F32) : Option Int :=
  if f32IsFinite x then
    let n : Nat := (2 * f32Units x + oneUnits) / (2 * oneUnits)
    some (if f32Sign x then -(n : Int) else (n : Int))
  else none

end Sys2Proof.Machine
end

