-- ==== Sys2Proof/Machine/Flags.lean ====
section
/-! DEFINITION. BCPID has no status flags and no condition codes (10_state.md R39): no operation writes one, so there is no
flag state. What stands here are the conditions that an operation computes and does not record: the comparisons of
00_scope.md R10 and R14 on which the selects of 60_exceptions.md R219 depend. -/

namespace Sys2Proof.Machine

/-- The place of a value that is no NaN in the order of the binary32 line: both zeros at 0, infinities at the ends. -/
def f32Key (x : F32) : Int := if f32Sign x then -(f32Mag x : Int) else (f32Mag x : Int)

/-- f32_le (R10): false when either operand is a NaN. -/
def f32Le (a b : F32) : Bool := !f32IsNaN a && !f32IsNaN b && decide (f32Key a ≤ f32Key b)

/-- f32_lt (R14). -/
def f32Lt (a b : F32) : Bool := f32Le a b && !f32Le b a

/-- inband on binary32 (R10): the closed band, false for a NaN. -/
def inband (v lo hi : F32) : Bool := f32Le lo v && f32Le v hi

/-- inband on int32 (R10): the signed comparison lo ≤ v ≤ hi. -/
def inbandInt (v lo hi : Word) : Bool := decide (lo.toInt ≤ v.toInt) && decide (v.toInt ≤ hi.toInt)

end Sys2Proof.Machine
end

