-- ==== Sys2Proof/Machine/Parameters.lean ====
section
/-! DEFINITION. Which parameter sets a model accepts (00_scope.md R4; a set that breaks R4 is refused by the step, U11). -/

namespace Sys2Proof.Machine

/-- A gain's band: MIN ≤ DEFAULT ≤ MAX, all three finite (R4). -/
def gainBandOk (lo dflt hi : F32) : Bool :=
  f32IsFinite lo && f32IsFinite dflt && f32IsFinite hi && f32Le lo dflt && f32Le dflt hi

/-- TARGET_MIN ≤ TARGET_DEFAULT ≤ TARGET_MAX (R4). -/
def targetBandOk (p : Params) : Bool := inbandInt p.targetDefault p.targetMin p.targetMax

/-- The duty band (R4): finite, DUTY_RESET and DUTY_INIT inside it, 0 ≤ DUTY_MIN, DUTY_MAX ≤ 1. -/
def dutyBandOk (p : Params) : Bool :=
  f32IsFinite p.dutyMin && f32IsFinite p.dutyMax && f32IsFinite p.dutyReset && f32IsFinite p.dutyInit &&
  inband p.dutyReset p.dutyMin p.dutyMax && inband p.dutyInit p.dutyMin p.dutyMax &&
  f32Le 0x00000000#32 p.dutyMin && f32Le p.dutyMax 0x3F800000#32

/-- Finite and greater than zero. -/
def f32Positive (x : F32) : Bool := f32IsFinite x && f32Lt 0x00000000#32 x

/-- A parameter set is well formed (R4). -/
def paramsWellFormed (p : Params) : Bool :=
  decide (1 ≤ p.rawMax.toNat) && decide (1 ≤ p.pwmTop.toNat) && targetBandOk p &&
  gainBandOk p.kpMin p.kpDefault p.kpMax && gainBandOk p.kiMin p.kiDefault p.kiMax &&
  gainBandOk p.kdMin p.kdDefault p.kdMax &&
  dutyBandOk p &&
  f32Positive p.tickInterval && f32Positive p.vRef && f32Positive p.divK

end Sys2Proof.Machine
end

