-- ==== Sys2Proof/Machine/Actuator.lean ====
section
/-! DEFINITION. The actuator stage (42_actuator.md): the conversion of a duty fraction to a PWM register value, with no range
check of its own (R152). -/

namespace Sys2Proof.Machine

/-- The product of PwmValue before the integer rounding, one binary32 multiplication (R150). -/
def pwmProduct (p : Params) (f : F32) : F32 := f32Mul f (i2f p.pwmTop.toNat)

/-- PwmValue(f) (R150); none where the product is not finite, for which R11 defines no rounding. -/
def pwmValue (p : Params) (f : F32) : Option Int := roundHaz (pwmProduct p f)

/-- The 16-bit PWM field for a duty f: PwmValue(f), which fits for every f in [0, 1] (R151); outside what the spec
states, a free value (log entry 8). -/
def pwmField (p : Params) (f : F32) : Half :=
  match pwmValue p f with
  | some v => if 0 ≤ v ∧ v < 65536 then BitVec.ofInt 16 v else Config.pwmUnstated f
  | none => Config.pwmUnstated f

end Sys2Proof.Machine
end

