-- ==== Sys2Proof/Machine/Arch.lean ====
section
/-! DEFINITION. BCPID's architectural state, exactly the fifteen items of 10_state.md R20, and its reset values
(70_reset_and_hazards.md R230). -/

namespace Sys2Proof.Machine

/-- The architectural state (R20): four setting registers, ten working registers and the hidden latch TICK_PEND. -/
structure Arch where
  /-- TARGET, int32 (R21) -/
  target : Word
  /-- KP, binary32 (R22) -/
  kp : F32
  /-- KI, binary32 (R23) -/
  ki : F32
  /-- KD, binary32 (R24) -/
  kd : F32
  /-- MEAS, binary32 (R27) -/
  meas : F32
  /-- ERR, binary32 (R28) -/
  err : F32
  /-- PERR, binary32 (R29) -/
  perr : F32
  /-- INTEG, binary32 (R30) -/
  integ : F32
  /-- DERIV, binary32 (R31) -/
  deriv : F32
  /-- DUTY, binary32 (R25) -/
  duty : F32
  /-- PWM, uint16 (R32) -/
  pwm : Half
  /-- SAMPV, binary32 (R33) -/
  sampv : F32
  /-- ADCRAW, uint16 (R35) -/
  adcraw : Half
  /-- TICKCNT, uint32 (R34) -/
  tickcnt : Word
  /-- TICK_PEND (R40) -/
  tickPend : Bool
  deriving DecidableEq, Repr

/-- The value RESET gives every piece of architectural state, for a parameter set (R230). -/
def resetArch (p : Params) : Arch where
  target := p.targetDefault
  kp := p.kpDefault
  ki := p.kiDefault
  kd := p.kdDefault
  meas := 0x00000000#32
  err := 0x00000000#32
  perr := 0x00000000#32
  integ := 0x00000000#32
  deriv := 0x00000000#32
  duty := p.dutyInit
  pwm := pwmField p p.dutyInit
  sampv := 0x00000000#32
  adcraw := 0#16
  tickcnt := 0#32
  tickPend := false

end Sys2Proof.Machine
end

