-- ==== Sys2Proof/Machine/State.lean ====
section
/-! DEFINITION. The machine's state as plain data: BCPID's architectural state, the parameter set it is built with, and the
inputs of its ports (10_state.md R42) as lists that the step reads. There is no memory (20_memory.md R51). -/

namespace Sys2Proof.Machine

/-- The `reset` input during one step (70_reset_and_hazards.md R232, 60_exceptions.md R206). -/
inductive ResetPin where
  /-- not asserted -/
  | low
  /-- asserted at the arbitration point: reset goes before every waiting event and no operation starts (R206) -/
  | first
  /-- asserted while the operation of this step is in progress: the operation ends with none of its effects kept (R232) -/
  | during
  deriving DecidableEq, Repr

/-- What the outside does up to one arbitration point and during the operation started there (60_exceptions.md R203).
What arrives while an operation is in progress waits for the next arbitration point (R205), so it stands in the next slot. -/
structure Slot where
  /-- how many tick strobes arrive (R204) -/
  strobes : Nat
  /-- the transactions hosts issue, (host, word), in order of issue (R70, R80) -/
  submits : List (Nat × Txn)
  reset : ResetPin
  deriving DecidableEq, Repr

/-- BCPID with its ports. The fields after `arch` are the model's own (log entries 1 to 5): the spec's state is `arch`. -/
structure State where
  /-- the parameter set (00_scope.md R3), which no step writes: log entry 1 -/
  params : Params
  /-- the architectural state (R20) -/
  arch : Arch
  /-- host transactions issued and not yet started, (host, word), each host's in its order of issue (R63, R205) -/
  waiting : List (Nat × Txn)
  /-- what the outside does at the coming arbitration points; none when empty: log entry 3 -/
  inputs : List Slot
  /-- the raw results the ADC answers with next (R12); when empty, a free value: log entry 2 -/
  adcIn : List Half
  /-- the arbiter's next choices among hosts (HOST_ORDER, R205); when empty, a free value: log entry 4 -/
  orderIn : List Nat
  /-- how many free values were used; it makes each of them fresh -/
  freeUsed : Nat
  /-- the read data the bus returned in the last step, none if it returned none (R42, R71): log entry 5 -/
  rdata : Option Word
  /-- the host whose transaction the last step started, if it started one: log entry 5 -/
  served : Option Nat
  deriving DecidableEq, Repr

/-- Why a step can stop with a fault: BCPID has no fault, trap or error response (60_exceptions.md R200), so there is no
such reason and no meaning raises one. -/
inductive Fault where
  deriving DecidableEq, Repr

/-- Why a step has no meaning. -/
inductive Refusal where
  /-- Raised by an arm of exec that has no meaning yet (none has): safe. -/
  | notModelled (mnemonic : String)
  /-- Raised by the step when the parameter set breaks 00_scope.md R4, which says a model refuses it (U11): safe. -/
  | illFormedParameters
  deriving DecidableEq, Repr

/-- The machine right after reset, as BCPID-1 (R230, R3), idle (R231), with nothing waiting at its ports. -/
def State.reset : State where
  params := Config.bcpid1
  arch := resetArch Config.bcpid1
  waiting := []
  inputs := []
  adcIn := []
  orderIn := []
  freeUsed := 0
  rdata := none
  served := none

end Sys2Proof.Machine
end

