-- ==== Sys2Proof/Machine/Operands.lean ====
section
/-! DEFINITION. How the data word of a transaction is read and how a register is laid on the bus (30_encoding.md R81,
20_memory.md R52, R53). No operand is extended, scaled or shifted on a write (R81). -/

namespace Sys2Proof.Machine

/-- D as int32, two's complement (R81, R5). -/
def asInt32 (d : Word) : Int := d.toInt

/-- D as binary32: the pattern itself (R81, R7). -/
def asBinary32 (d : Word) : F32 := d

/-- zext_32 of a 16-bit register (R81, R52). -/
def zext32 (h : Half) : Word := h.zeroExtend 32

/-- Byte lane k of a word, D[8k+7:8k], at byte address BCPID_BASE + offset + k (R53). -/
def byteLane (d : Word) (k : Nat) : BitVec 8 := d.extractLsb' (8 * k) 8

/-- What the bus returns for a read of each offset (R52): 0 for CMD, for 0x3C and for a misaligned offset (R181). -/
def readOffset (r : Arch) (a : Offset) : Word :=
  if a = 0x04#6 then r.target
  else if a = 0x08#6 then r.kp
  else if a = 0x0C#6 then r.ki
  else if a = 0x10#6 then r.kd
  else if a = 0x14#6 then r.meas
  else if a = 0x18#6 then r.err
  else if a = 0x1C#6 then r.perr
  else if a = 0x20#6 then r.integ
  else if a = 0x24#6 then r.deriv
  else if a = 0x28#6 then r.duty
  else if a = 0x2C#6 then zext32 r.pwm
  else if a = 0x30#6 then r.sampv
  else if a = 0x34#6 then zext32 r.adcraw
  else if a = 0x38#6 then r.tickcnt
  else 0x00000000#32

end Sys2Proof.Machine
end

