-- ==== Sys2Proof/Machine/Ops.lean ====
section
/-! DEFINITION. The operations the meanings share: one conversion of the ADC (00_scope.md R12), the bus's answer to a read,
the write of a setting register, and RESET (70_reset_and_hazards.md R230). BCPID takes no exception and returns from none
(60_exceptions.md R200, R202), so there is no such operation; RESET and the tick strobe's latch (Machine/Arbiter.lean) are
the only events outside transactions. -/

namespace Sys2Proof.Machine

/-- The outcome of a step or of an instruction. -/
abbrev Result := Host.Outcome State Fault Refusal

/-- A raw result brought into [0, RAW_MAX], the only law of the oracle (R12): every value of the range is the image of
itself (log entry 2). -/
def rawInRange (rawMax x : Half) : Half := BitVec.ofNat 16 (x.toNat % (rawMax.toNat + 1))

/-- AdcConvert() (R12): the raw result of the conversion that starts in s, the ADC port's next answer or else a free value. -/
def adcResult (s : State) : Half :=
  rawInRange s.params.rawMax (match s.adcIn with | x :: _ => x | [] => Config.adcDraw s.freeUsed)

/-- The state after that conversion's answer has been taken. -/
def adcTaken (s : State) : State :=
  match s.adcIn with
  | _ :: xs => { s with adcIn := xs }
  | [] => { s with freeUsed := s.freeUsed + 1 }

/-- s with the architectural state r. -/
def withArch (s : State) (r : Arch) : State := { s with arch := r }

/-- The bus returns v to the host; no state changes (R56). -/
def respond (s : State) (v : Word) : State := { s with rdata := some v }

/-- The binary32 band-or-default choice of a gain write (R161 to R163): the written pattern if it is in band, else the default. -/
def bandOrDefault (d lo hi dflt : F32) : F32 := if inband (asBinary32 d) lo hi then d else dflt

/-- The int32 band-or-default choice of a target write (R160). -/
def targetOrDefault (p : Params) (d : Word) : Word :=
  if p.targetMin.toInt ≤ asInt32 d ∧ asInt32 d ≤ p.targetMax.toInt then d else p.targetDefault

/-- RESET (R230): every piece of architectural state takes its reset value and nothing else happens; no conversion starts. -/
def resetOperation (s : State) : State := withArch s (resetArch s.params)

/-- The output port pwm_cmp[15:0] (R42, R153). -/
def pwmCmp (s : State) : Half := s.arch.pwm

end Sys2Proof.Machine
end

