-- ==== Sys2Proof/Machine/Sampler.lean ====
section
/-! DEFINITION. The voltage sampler (40_sampler.md) and the SAMPLE command. -/

namespace Sys2Proof.Machine

/-- Scale(raw) (R100): three binary32 operations, in the document's left-to-right order. -/
def scale (p : Params) (raw : Half) : F32 :=
  let a := f32Mul (i2f raw.toNat) p.vRef
  let b := f32Div a (i2f p.rawMax.toNat)
  f32Div b p.divK

/-- Sample() (R101), the value it returns. -/
def sampleValue (s : State) : F32 := scale s.params (adcResult s)

/-- Sample() (R101), the state it leaves: ADCRAW holds the raw result and nothing else is written. -/
def sampled (s : State) : State :=
  withArch (adcTaken s) { s.arch with adcraw := adcResult s }

/-- SAMPLE (R102): SAMPV receives the sample; D[31:4] is ignored. -/
def execSample (_ign : BitVec 28) (s : State) : Result :=
  .next (withArch (sampled s) { (sampled s).arch with sampv := sampleValue s })

end Sys2Proof.Machine
end

