-- ==== Sys2Proof/Machine/Pid.lean ====
section
/-! DEFINITION. The PID controller engine (41_pid.md): the steps of TICK, PidCore and the TICK command. -/

namespace Sys2Proof.Machine

/-- Step 2 (R122): the error, measured minus target. -/
def pidError (r : Arch) (m : F32) : F32 := f32Sub m (i2f r.target.toInt)

/-- Step 3 (R123): the derivative, with PERR of the previous tick. -/
def pidDeriv (p : Params) (r : Arch) (e : F32) : F32 := f32Div (f32Sub e r.perr) p.tickInterval

/-- Step 4 (R124): the compounding integral, exactly the document's formula (I14). -/
def pidInteg (p : Params) (r : Arch) (e : F32) : F32 := f32Mul (f32Add r.integ e) p.tickInterval

/-- Step 5 (R125): the correction ((e * KP) + (ig * KI)) + (der * KD), each operation rounded. -/
def pidCorrection (r : Arch) (e ig der : F32) : F32 :=
  f32Add (f32Add (f32Mul e r.kp) (f32Mul ig r.ki)) (f32Mul der r.kd)

/-- Step 5 (R125): the candidate duty d0, for a measured voltage m. -/
def pidCandidate (p : Params) (r : Arch) (m : F32) : F32 :=
  let e := pidError r m
  f32Sub r.duty (pidCorrection r e (pidInteg p r e) (pidDeriv p r e))

/-- Step 6 (R126): d0 is outside the closed duty band, a NaN included. -/
def saturates (p : Params) (d0 : F32) : Bool := !inband d0 p.dutyMin p.dutyMax

/-- Step 6 (R126): re-centering, not clamping. -/
def recenter (p : Params) (d0 : F32) : F32 := if saturates p d0 then p.dutyReset else d0

/-- PidCore(S, m) (R135): TICK after step 1, with m the measured voltage. -/
def pidCore (p : Params) (r : Arch) (m : F32) : Arch :=
  let e := pidError r m
  let ig := pidInteg p r e
  let d0 := pidCandidate p r m
  let d := recenter p d0
  { r with
    meas := m
    err := e
    deriv := pidDeriv p r e
    integ := if saturates p d0 && p.integResetOnSat then 0x00000000#32 else ig
    duty := d
    pwm := pwmField p d
    perr := e
    tickcnt := r.tickcnt + 1#32 }

/-- The TICK operation (R120), started by a CMD write or from TICK_PEND alike (R132). -/
def tickOperation (s : State) : State :=
  withArch (sampled s) (pidCore s.params (sampled s).arch (sampleValue s))

/-- TICK (R120); D[31:4] is ignored. -/
def execTick (_ign : BitVec 28) (s : State) : Result := .next (tickOperation s)

end Sys2Proof.Machine
end

