-- ==== Sys2Proof/Machine/Arbiter.lean ====
section
/-! DEFINITION. Events, arbitration and reset between operations (60_exceptions.md R203 to R207, 70_reset_and_hazards.md R232):
what a step does around the one operation it runs. -/

namespace Sys2Proof.Machine

/-- What happens when nothing does. -/
def quietSlot : Slot := ⟨0, [], .low⟩

/-- What the outside does in this step; nothing, when the list of inputs is used up. -/
def slotOf (s : State) : Slot := s.inputs.headD quietSlot

/-- The arrivals up to the arbitration point: any strobe sets TICK_PEND (R204), transactions wait behind those already
waiting, and the bus's answer of the last step is over. -/
def arrivals (s : State) : State :=
  { s with
    arch := { s.arch with tickPend := s.arch.tickPend || decide (0 < (slotOf s).strobes) }
    waiting := s.waiting ++ (slotOf s).submits
    inputs := s.inputs.tail
    rdata := none
    served := none }

/-- The hosts with a waiting transaction, each once. -/
def hostsOf : List (Nat × Txn) → List Nat
  | [] => []
  | (h, _) :: rest => h :: (hostsOf rest).filter (fun h' => decide (h' ≠ h))

/-- Host h's first waiting transaction, and the list without it (R63: each host's own order). -/
def takeFirst (h : Nat) : List (Nat × Txn) → Option (Txn × List (Nat × Txn))
  | [] => none
  | (h', t) :: rest =>
    if h' = h then some (t, rest)
    else match takeFirst h rest with
      | some (t', rest') => some (t', (h', t) :: rest')
      | none => none

/-- The arbiter's choice number (HOST_ORDER, D24): given by orderIn, or else a free value. -/
def orderChoice (s : State) : Nat :=
  match s.orderIn with
  | n :: _ => n
  | [] => Config.hostOrder s.freeUsed

/-- The state after that choice has been used. -/
def orderTaken (s : State) : State :=
  match s.orderIn with
  | _ :: ns => { s with orderIn := ns }
  | [] => { s with freeUsed := s.freeUsed + 1 }

/-- The host served next: no choice when one host waits, any of them when several do (R205, U8). -/
def chooseHost (s : State) : Option (Nat × State) :=
  match hostsOf s.waiting with
  | [] => none
  | [h] => some (h, s)
  | h :: h' :: hs =>
    some ((h :: h' :: hs).getD (orderChoice s % (hs.length + 2)) h, orderTaken s)

/-- What the arbiter starts. -/
inductive Grant where
  /-- nothing waits -/
  | idle
  /-- reset, which goes before everything (R206) -/
  | reset
  /-- the TICK a strobe requested (R205) -/
  | tick
  /-- a host's transaction (R205) -/
  | transaction (host : Nat) (t : Txn)
  deriving DecidableEq, Repr

/-- The arbitration point (R205, R206): reset, then a pending tick, whose latch is cleared, then one waiting transaction. -/
def arbitrate (pin : ResetPin) (s : State) : Grant × State :=
  if pin = .first then (.reset, s)
  else if s.arch.tickPend then (.tick, withArch s { s.arch with tickPend := false })
  else match chooseHost s with
    | none => (.idle, s)
    | some (h, s') =>
      match takeFirst h s.waiting with
      | none => (.idle, s)
      | some (t, rest) => (.transaction h t, { s' with waiting := rest, served := some h })

/-- The operation that was granted, run to its end (R60). A TICK from TICK_PEND is the TICK of R120 (R132). -/
def perform (run : Instr → State → Result) (g : Grant) (s : State) : Result :=
  match g with
  | .idle => .next s
  | .reset => .next (resetOperation s)
  | .tick => .next (tickOperation s)
  | .transaction _ t => run (decode t) s

/-- A granted host read, whose data a reset leaves undefined (R232). -/
def grantsRead (g : Grant) : Bool :=
  match g with
  | .transaction _ t => !txnW t
  | _ => false

/-- An operation that reset ended: none of its effects is kept, every register has its reset value, a conversion's answer is
discarded, and a read in progress returns a free value (R232, U6, U7; log entry 7). -/
def aborted (g : Grant) (s : State) : State :=
  if grantsRead g then
    { resetOperation s with rdata := some (Config.abortedReadData s.freeUsed), freeUsed := s.freeUsed + 1 }
  else { resetOperation s with rdata := none }

/-- What reset during the operation makes of its outcome (R232). -/
def underReset (pin : ResetPin) (g : Grant) (r : Result) : Result :=
  match pin, r with
  | .during, .next s => .next (aborted g s)
  | _, r => r

/-- One step around the meanings of the instructions: the arrivals, the arbitration, the operation, and reset. A parameter
set that breaks R4 is refused (U11; log entry 9). -/
def stepWith (run : Instr → State → Result) (s : State) : Result :=
  if paramsWellFormed s.params then
    underReset (slotOf s).reset (arbitrate (slotOf s).reset (arrivals s)).1
      (perform run (arbitrate (slotOf s).reset (arrivals s)).1 (arbitrate (slotOf s).reset (arrivals s)).2)
  else .refused .illFormedParameters

end Sys2Proof.Machine
end

