-- ==== Sys2Proof/Machine/Commands.lean ====
section
/-! DEFINITION. The CMD codes without effect: NOP (43_register_access.md R164) and the reserved codes (R180). -/

namespace Sys2Proof.Machine

/-- NOP (R164): no state change. -/
def execNop (_ign : BitVec 28) (s : State) : Result := .next s

/-- RSV.CMD.3 (R180): no state change. -/
def execRsvCmd3 (_ign : BitVec 28) (s : State) : Result := .next s

/-- RSV.CMD.4-7 (R180): no state change. -/
def execRsvCmd4to7 (_op : BitVec 4) (_ign : BitVec 28) (s : State) : Result := .next s

/-- RSV.CMD.8-F (R180): no state change. -/
def execRsvCmd8toF (_op : BitVec 4) (_ign : BitVec 28) (s : State) : Result := .next s

end Sys2Proof.Machine
end

