-- ==== Sys2Proof/Machine/Reads.lean ====
section
/-! DEFINITION. The register reads (43_register_access.md R166 to R179). Every read returns the register as a 32-bit word and
changes no state (20_memory.md R56); D is don't care. -/

namespace Sys2Proof.Machine

/-- RD.TARGET (R166). -/
def execRdTarget (_d : Word) (s : State) : Result := .next (respond s (readOffset s.arch 0x04#6))

/-- RD.KP (R167). -/
def execRdKp (_d : Word) (s : State) : Result := .next (respond s (readOffset s.arch 0x08#6))

/-- RD.KI (R168). -/
def execRdKi (_d : Word) (s : State) : Result := .next (respond s (readOffset s.arch 0x0C#6))

/-- RD.KD (R169). -/
def execRdKd (_d : Word) (s : State) : Result := .next (respond s (readOffset s.arch 0x10#6))

/-- RD.MEAS (R170). -/
def execRdMeas (_d : Word) (s : State) : Result := .next (respond s (readOffset s.arch 0x14#6))

/-- RD.ERR (R171). -/
def execRdErr (_d : Word) (s : State) : Result := .next (respond s (readOffset s.arch 0x18#6))

/-- RD.PERR (R172). -/
def execRdPerr (_d : Word) (s : State) : Result := .next (respond s (readOffset s.arch 0x1C#6))

/-- RD.INTEG (R173). -/
def execRdInteg (_d : Word) (s : State) : Result := .next (respond s (readOffset s.arch 0x20#6))

/-- RD.DERIV (R174). -/
def execRdDeriv (_d : Word) (s : State) : Result := .next (respond s (readOffset s.arch 0x24#6))

/-- RD.DUTY (R175). -/
def execRdDuty (_d : Word) (s : State) : Result := .next (respond s (readOffset s.arch 0x28#6))

/-- RD.PWM (R176). -/
def execRdPwm (_d : Word) (s : State) : Result := .next (respond s (readOffset s.arch 0x2C#6))

/-- RD.SAMPV (R177). -/
def execRdSampv (_d : Word) (s : State) : Result := .next (respond s (readOffset s.arch 0x30#6))

/-- RD.ADCRAW (R178). -/
def execRdAdcraw (_d : Word) (s : State) : Result := .next (respond s (readOffset s.arch 0x34#6))

/-- RD.TICKCNT (R179). -/
def execRdTickcnt (_d : Word) (s : State) : Result := .next (respond s (readOffset s.arch 0x38#6))

end Sys2Proof.Machine
end

