-- ==== Sys2Proof/Machine/Reserved.lean ====
section
/-! DEFINITION. The reserved encodings at register offsets (43_register_access.md R181, R182; 30_encoding.md R83): a reserved
write changes no state, a reserved read returns 0 and changes no state. Nothing reports either (R200). -/

namespace Sys2Proof.Machine

/-- A write that is ignored (R182, R55). -/
def ignoreWrite (s : State) : State := s

/-- RSV.WR.MEAS (R182). -/
def execRsvWrMeas (_d : Word) (s : State) : Result := .next (ignoreWrite s)

/-- RSV.WR.ERR (R182). -/
def execRsvWrErr (_d : Word) (s : State) : Result := .next (ignoreWrite s)

/-- RSV.WR.PERR (R182). -/
def execRsvWrPerr (_d : Word) (s : State) : Result := .next (ignoreWrite s)

/-- RSV.WR.INTEG (R182). -/
def execRsvWrInteg (_d : Word) (s : State) : Result := .next (ignoreWrite s)

/-- RSV.WR.DERIV (R182). -/
def execRsvWrDeriv (_d : Word) (s : State) : Result := .next (ignoreWrite s)

/-- RSV.WR.DUTY (R182). -/
def execRsvWrDuty (_d : Word) (s : State) : Result := .next (ignoreWrite s)

/-- RSV.WR.PWM (R182). -/
def execRsvWrPwm (_d : Word) (s : State) : Result := .next (ignoreWrite s)

/-- RSV.WR.SAMPV (R182). -/
def execRsvWrSampv (_d : Word) (s : State) : Result := .next (ignoreWrite s)

/-- RSV.WR.ADCRAW (R182). -/
def execRsvWrAdcraw (_d : Word) (s : State) : Result := .next (ignoreWrite s)

/-- RSV.WR.TICKCNT (R182). -/
def execRsvWrTickcnt (_d : Word) (s : State) : Result := .next (ignoreWrite s)

/-- RSV.WR.3C (R182). -/
def execRsvWr3C (_d : Word) (s : State) : Result := .next (ignoreWrite s)

/-- RSV.WR.MISALIGNED.A0 (R182, R55). -/
def execRsvWrMisalignedA0 (_a : Offset) (_d : Word) (s : State) : Result := .next (ignoreWrite s)

/-- RSV.WR.MISALIGNED.A10 (R182, R55). -/
def execRsvWrMisalignedA10 (_a : Offset) (_d : Word) (s : State) : Result := .next (ignoreWrite s)

/-- RD.CMD (R181): CMD is write-only and reads 0 (R38). -/
def execRdCmd (_d : Word) (s : State) : Result := .next (respond s (readOffset s.arch 0x00#6))

/-- RSV.RD.3C (R181). -/
def execRsvRd3C (_d : Word) (s : State) : Result := .next (respond s (readOffset s.arch 0x3C#6))

/-- RSV.RD.MISALIGNED.A0 (R181, R55). -/
def execRsvRdMisalignedA0 (_a : Offset) (_d : Word) (s : State) : Result := .next (respond s 0x00000000#32)

/-- RSV.RD.MISALIGNED.A10 (R181, R55). -/
def execRsvRdMisalignedA10 (_a : Offset) (_d : Word) (s : State) : Result := .next (respond s 0x00000000#32)

end Sys2Proof.Machine
end

