-- ==== Sys2Proof/Machine/Settings.lean ====
section
/-! DEFINITION. The setting-register writes, band-or-default (43_register_access.md R160 to R163). -/

namespace Sys2Proof.Machine

/-- WR.TARGET (R160). -/
def execWrTarget (d : Word) (s : State) : Result :=
  .next (withArch s { s.arch with target := targetOrDefault s.params d })

/-- WR.KP (R161). -/
def execWrKp (d : Word) (s : State) : Result :=
  .next (withArch s { s.arch with kp := bandOrDefault d s.params.kpMin s.params.kpMax s.params.kpDefault })

/-- WR.KI (R162). -/
def execWrKi (d : Word) (s : State) : Result :=
  .next (withArch s { s.arch with ki := bandOrDefault d s.params.kiMin s.params.kiMax s.params.kiDefault })

/-- WR.KD (R163). -/
def execWrKd (d : Word) (s : State) : Result :=
  .next (withArch s { s.arch with kd := bandOrDefault d s.params.kdMin s.params.kdMax s.params.kdDefault })

end Sys2Proof.Machine
end

