-- ==== Sys2Proof/Machine/Dispatch.lean ====
section
/-! DEFINITION. The dispatch of every instruction to its meaning, one arm per row of the opcode table (30_encoding.md R82). -/

namespace Sys2Proof.Machine

def exec (i : Instr) (s : State) : Host.Outcome State Fault Refusal :=
  match i with
  | .nop ign => Sys2Proof.Machine.execNop ign s
  | .tick ign => Sys2Proof.Machine.execTick ign s
  | .sample ign => Sys2Proof.Machine.execSample ign s
  | .rsvCmd3 ign => Sys2Proof.Machine.execRsvCmd3 ign s
  | .rsvCmd4to7 op ign => Sys2Proof.Machine.execRsvCmd4to7 op ign s
  | .rsvCmd8toF op ign => Sys2Proof.Machine.execRsvCmd8toF op ign s
  | .wrTarget d => Sys2Proof.Machine.execWrTarget d s
  | .wrKp d => Sys2Proof.Machine.execWrKp d s
  | .wrKi d => Sys2Proof.Machine.execWrKi d s
  | .wrKd d => Sys2Proof.Machine.execWrKd d s
  | .rsvWrMeas d => Sys2Proof.Machine.execRsvWrMeas d s
  | .rsvWrErr d => Sys2Proof.Machine.execRsvWrErr d s
  | .rsvWrPerr d => Sys2Proof.Machine.execRsvWrPerr d s
  | .rsvWrInteg d => Sys2Proof.Machine.execRsvWrInteg d s
  | .rsvWrDeriv d => Sys2Proof.Machine.execRsvWrDeriv d s
  | .rsvWrDuty d => Sys2Proof.Machine.execRsvWrDuty d s
  | .rsvWrPwm d => Sys2Proof.Machine.execRsvWrPwm d s
  | .rsvWrSampv d => Sys2Proof.Machine.execRsvWrSampv d s
  | .rsvWrAdcraw d => Sys2Proof.Machine.execRsvWrAdcraw d s
  | .rsvWrTickcnt d => Sys2Proof.Machine.execRsvWrTickcnt d s
  | .rsvWr3C d => Sys2Proof.Machine.execRsvWr3C d s
  | .rsvWrMisalignedA0 a d => Sys2Proof.Machine.execRsvWrMisalignedA0 a d s
  | .rsvWrMisalignedA10 a d => Sys2Proof.Machine.execRsvWrMisalignedA10 a d s
  | .rdCmd d => Sys2Proof.Machine.execRdCmd d s
  | .rdTarget d => Sys2Proof.Machine.execRdTarget d s
  | .rdKp d => Sys2Proof.Machine.execRdKp d s
  | .rdKi d => Sys2Proof.Machine.execRdKi d s
  | .rdKd d => Sys2Proof.Machine.execRdKd d s
  | .rdMeas d => Sys2Proof.Machine.execRdMeas d s
  | .rdErr d => Sys2Proof.Machine.execRdErr d s
  | .rdPerr d => Sys2Proof.Machine.execRdPerr d s
  | .rdInteg d => Sys2Proof.Machine.execRdInteg d s
  | .rdDeriv d => Sys2Proof.Machine.execRdDeriv d s
  | .rdDuty d => Sys2Proof.Machine.execRdDuty d s
  | .rdPwm d => Sys2Proof.Machine.execRdPwm d s
  | .rdSampv d => Sys2Proof.Machine.execRdSampv d s
  | .rdAdcraw d => Sys2Proof.Machine.execRdAdcraw d s
  | .rdTickcnt d => Sys2Proof.Machine.execRdTickcnt d s
  | .rsvRd3C d => Sys2Proof.Machine.execRsvRd3C d s
  | .rsvRdMisalignedA0 a d => Sys2Proof.Machine.execRsvRdMisalignedA0 a d s
  | .rsvRdMisalignedA10 a d => Sys2Proof.Machine.execRsvRdMisalignedA10 a d s

end Sys2Proof.Machine
end

