-- ==== Sys2Proof/Machine/Step.lean ====
section
/-! DEFINITION. One step of the machine: one arbitration point and the one operation started there (20_memory.md R60). -/

namespace Sys2Proof.Machine

/-- One step: everything it does around exec is stepWith's (Machine/Arbiter.lean). -/
def step (s : State) : Host.Outcome State Fault Refusal := stepWith exec s

/-- s with the transaction word w as the only thing at its ports: host 0 waits with it, no strobe is pending, and nothing
else arrives, so that the next step runs it. The bits above nbits are 0; T has 39 bits (R80). It stands for the host that
issues the transaction: log entry 3. -/
def State.withFetchWord (s : State) (nbits w : Nat) : State :=
  { s with
    arch := { s.arch with tickPend := false }
    waiting := [(0, BitVec.ofNat 39 (w % 2 ^ nbits))]
    inputs := [] }

end Sys2Proof.Machine
end

