-- ==== Sys2Proof/Machine/HostPort.lean ====
section
/-! DEFINITION. The host's side of the bus: the assembler's forms (30_encoding.md R85, R90), the access functions of
00_scope.md R14, and the pseudo-instructions (R86 to R92), which are sequences of transactions a host issues and no
operations of BCPID (log entry 17). -/

namespace Sys2Proof.Machine

/-- The register names a transaction may be written with (R85, R52). -/
inductive RegName where
  | cmd | target | kp | ki | kd | meas | err | perr | integ | deriv | duty | pwm | sampv | adcraw | tickcnt
  deriving DecidableEq, Repr

/-- The offset of a register name (R52). -/
def regOffset : RegName → Offset
  | .cmd => 0x00#6
  | .target => 0x04#6
  | .kp => 0x08#6
  | .ki => 0x0C#6
  | .kd => 0x10#6
  | .meas => 0x14#6
  | .err => 0x18#6
  | .perr => 0x1C#6
  | .integ => 0x20#6
  | .deriv => 0x24#6
  | .duty => 0x28#6
  | .pwm => 0x2C#6
  | .sampv => 0x30#6
  | .adcraw => 0x34#6
  | .tickcnt => 0x38#6

/-- A written value (R85): a hexadecimal word, a signed integer, or a decimal ±num/den. -/
inductive AsmValue where
  | word (w : Word)
  | int (n : Int)
  | decimal (neg : Bool) (num den : Nat)
  deriving DecidableEq, Repr

/-- The data word of a written value (R85, R90); none for an integer outside int32 and for a decimal with no denominator. -/
def valueWord : AsmValue → Option Word
  | .word w => some w
  | .int n => if -(2 ^ 31) ≤ n ∧ n < 2 ^ 31 then some (BitVec.ofInt 32 n) else none
  | .decimal neg num den => if den = 0 then none else some (f32OfRatio neg num den)

/-- The forms of a transaction (R85), with the value already a word. -/
inductive AsmForm where
  | rd (r : RegName)
  | rdAt (off : Offset)
  | wr (r : RegName) (v : Word)
  | wrAt (off : Offset) (v : Word)
  | nop
  | tick
  | sample
  deriving DecidableEq, Repr

/-- What each form encodes (R85). -/
def assemble : AsmForm → Txn
  | .rd r => mkTxn false (regOffset r) 0#32
  | .rdAt off => mkTxn false off 0#32
  | .wr r v => mkTxn true (regOffset r) v
  | .wrAt off v => mkTxn true off v
  | .nop => mkTxn true (regOffset .cmd) 0x0#32
  | .tick => mkTxn true (regOffset .cmd) 0x1#32
  | .sample => mkTxn true (regOffset .cmd) 0x2#32

/-- MemRead(addr, n) (R14): the transaction it is, for addr in the register space at base and n = 4; there is no other. -/
def memRead (base addr n : Nat) : Option Txn :=
  if n = 4 ∧ base ≤ addr ∧ addr - base < 64 then some (assemble (.rdAt (BitVec.ofNat 6 (addr - base)))) else none

/-- MemWrite(addr, n, v) (R14). -/
def memWrite (base addr n : Nat) (v : Word) : Option Txn :=
  if n = 4 ∧ base ≤ addr ∧ addr - base < 64 then some (assemble (.wrAt (BitVec.ofNat 6 (addr - base)) v)) else none

/-- CHAN.SET sel, d0, d1 (R86): the digits are summed, and any other selector issues nothing (R87). -/
def chanSet (hp : HostParams) (sel : Char) (d0 d1 : Fin 10) : List Txn :=
  let n := d0.val + d1.val
  if sel = '1' then [assemble (.wr .target (BitVec.ofNat 32 n))]
  else if sel = '2' then [assemble (.wr .kp (f32Mul (i2f n) hp.scaleP))]
  else if sel = '3' then [assemble (.wr .ki (f32Mul (i2f n) hp.scaleI))]
  else if sel = '4' then [assemble (.wr .kd (f32Mul (i2f n) hp.scaleD))]
  else []

/-- CHAN.INVALID (R87): no transaction. -/
def chanInvalid : List Txn := []

/-- WR TARGET, n for an integer n that the host computed exactly (R14): n as int32. An n outside int32 has no word; it is
outside every band, so that R88 and R160 store TARGET_DEFAULT, and that is the word the host writes (log entry 17). -/
def targetWrite (p : Params) (n : Int) : Txn := assemble (.wr .target ((valueWord (.int n)).getD p.targetDefault))

/-- The transactions with which TRIM.DEC and TRIM.INC begin (R88, R89): SAMPLE, RD SAMPV, RD TARGET. -/
def trimReads : List Txn := [assemble .sample, assemble (.rd .sampv), assemble (.rd .target)]

/-- The write that ends TRIM.DEC, from the values v and t its reads returned (R88): t - 1 is exact (R14). -/
def trimDecWrite (hp : HostParams) (p : Params) (v : F32) (t : Word) : Txn :=
  if f32Lt hp.trimLow v then targetWrite p (asInt32 t - 1) else assemble (.wr .target p.targetDefault)

/-- The write that ends TRIM.INC (R89): t + 1 is exact (R14). -/
def trimIncWrite (hp : HostParams) (p : Params) (v : F32) (t : Word) : Txn :=
  if f32Lt v hp.trimHigh then targetWrite p (asInt32 t + 1) else assemble (.wr .target p.targetDefault)

/-- TRIM.DEC (R88), v and t the values its reads return. -/
def trimDec (hp : HostParams) (p : Params) (v : F32) (t : Word) : List Txn := trimReads ++ [trimDecWrite hp p v t]

/-- TRIM.INC (R89). -/
def trimInc (hp : HostParams) (p : Params) (v : F32) (t : Word) : List Txn := trimReads ++ [trimIncWrite hp p v t]

/-- The transaction with which RMW.TARGET begins (R91): RD TARGET. -/
def rmwTargetRead : Txn := assemble (.rd .target)

/-- The write that ends RMW.TARGET delta, from the value t its read returned (R91): t + delta is exact (R14). -/
def rmwTargetWrite (p : Params) (t : Word) (delta : Int) : Txn := targetWrite p (asInt32 t + delta)

/-- RMW.TARGET delta (R91): two transactions, not atomic (R65). -/
def rmwTarget (p : Params) (t : Word) (delta : Int) : List Txn := [rmwTargetRead, rmwTargetWrite p t delta]

/-- One pass of SNAP (R92): TICKCNT, the working registers, TICKCNT. -/
def snapReads : List Txn :=
  [assemble (.rd .tickcnt), assemble (.rd .meas), assemble (.rd .err), assemble (.rd .perr), assemble (.rd .integ),
   assemble (.rd .deriv), assemble (.rd .duty), assemble (.rd .pwm), assemble (.rd .tickcnt)]

/-- SNAP reads again while the two TICKCNT values differ (R92, R62). -/
def snapRepeats (c0 c1 : Word) : Bool := c0 != c1

end Sys2Proof.Machine
end

