-- ==== Sys2Proof/Safety.lean ====
section
/-! DEFINITION. What counts as a safe state: the invariants that the spec states of every reachable state (10_state.md R26,
R32, R35, R36). The machine itself checks none of them (R26). -/

namespace Sys2Proof.Machine

/-- Settings and duty in their bands (R26: R21 to R25). -/
def settingsInBand (p : Params) (r : Arch) : Bool :=
  inbandInt r.target p.targetMin p.targetMax && inband r.kp p.kpMin p.kpMax && inband r.ki p.kiMin p.kiMax &&
  inband r.kd p.kdMin p.kdMax && inband r.duty p.dutyMin p.dutyMax

/-- PWM is PwmValue(DUTY) (R32). -/
def pwmFollowsDuty (p : Params) (r : Arch) : Bool := decide (pwmValue p r.duty = some (r.pwm.toNat : Int))

/-- ERR and PERR hold the same pattern (R36). -/
def errorsAgree (r : Arch) : Bool := r.err == r.perr

/-- ADCRAW is a possible raw result (R35). -/
def rawInBounds (p : Params) (r : Arch) : Bool := decide (r.adcraw.toNat ≤ p.rawMax.toNat)

/-- All of them, for a state with an accepted parameter set (R4). -/
def safeState (s : State) : Bool :=
  paramsWellFormed s.params && settingsInBand s.params s.arch && pwmFollowsDuty s.params s.arch && errorsAgree s.arch &&
  rawInBounds s.params s.arch

/-- The transactions host h has waiting, in order. -/
def hostQueue (h : Nat) (w : List (Nat × Txn)) : List Txn := (w.filter (fun e => e.1 == h)).map Prod.snd

end Sys2Proof.Machine
end

