-- ==== Sys2Proof/Certificates/Slice0/Obligations.lean ====
section
/-! DEFINITION. The statements for the provers. Each docstring names the rule of spec/ it formalises; where a statement rests
on a choice of the model it says so and names the log entry. -/

open Sys2Proof Sys2Proof.Machine

/-! ## Encoding (30_encoding.md) -/

/-- R80, R82: the decoder reads back every operand bit that the encoder writes, for every well-formed instruction. -/
def Obligations.DecodeInvertsEncode : Prop :=
  ∀ i : Instr, wellFormed i = true → decode (encode i) = i

/-- R80, R82: every 39-bit word is the encoding of the well-formed instruction it decodes to; no bit is dropped. -/
def Obligations.EncodeInvertsDecode : Prop :=
  ∀ t : Txn, encode (decode t) = t ∧ wellFormed (decode t) = true

/-- R82: every word is selected by exactly one row, the row of the instruction it decodes to. -/
def Obligations.OpcodeRowsDisjointAndTotal : Prop :=
  ∀ t : Txn, rowSelects (rowOf (decode t)) t = true ∧
    ∀ i : Instr, rowSelects (rowOf i) t = true → rowOf i = rowOf (decode t)

/-- R80 to R84, words of 95_test_vectors.md (P1, P5, V-WR, V-RSV, V-RD): what they decode to. -/
def Obligations.SampleWordsDecode : Prop :=
  decode 0x4000000000#39 = .nop 0#28 ∧
  decode 0x4000000001#39 = .tick 0#28 ∧
  decode 0x40FFFFFFF2#39 = .sample 0xFFFFFFF#28 ∧
  decode 0x4000000009#39 = .rsvCmd8toF 0x9#4 0#28 ∧
  decode 0x483A378034#39 = .wrKp 0x3A378034#32 ∧
  decode 0x448000000C#39 = .wrTarget 0x8000000C#32 ∧
  decode 0x683F800000#39 = .rsvWrDuty 0x3F800000#32 ∧
  decode 0x460000000C#39 = .rsvWrMisalignedA10 0x06#6 12#32 ∧
  decode 0x28FFFFFFFF#39 = .rdDuty 0xFFFFFFFF#32 ∧
  decode 0x2900000000#39 = .rsvRdMisalignedA0 0x29#6 0#32 ∧
  decode 0x3C00000000#39 = .rsvRd3C 0#32

/-- R84: two CMD writes with the same D[3:0] do the same, 0xFFFFFFF1 is a TICK, and the assembler writes D[31:4] as 0. -/
def Obligations.CommandUpperBitsIgnored : Prop :=
  (∀ (d d' : Word) (s : State), cmdOp d = cmdOp d' →
    exec (decode (mkTxn true 0x00#6 d)) s = exec (decode (mkTxn true 0x00#6 d')) s) ∧
  decode (mkTxn true 0x00#6 0xFFFFFFF1#32) = .tick 0xFFFFFFF#28 ∧
  cmdIgn (txnD (assemble .nop)) = 0#28 ∧ cmdIgn (txnD (assemble .tick)) = 0#28 ∧ cmdIgn (txnD (assemble .sample)) = 0#28

/-! ## Reads and reserved encodings (43_register_access.md, 20_memory.md) -/

/-- R56: a read of any offset, with any D, changes no state (TICK_PEND included) and returns the register map's value; while
the registers stay as they are, every later read of the offset returns the same value. -/
def Obligations.ReadsHaveNoSideEffect : Prop :=
  ∀ (a : Offset) (d d' : Word) (s : State),
    exec (decode (mkTxn false a d)) s = .next { s with rdata := some (readOffset s.arch a) } ∧
    ∀ t : State, t.arch = s.arch →
      exec (decode (mkTxn false a d')) t = .next { t with rdata := some (readOffset s.arch a) }

/-- R166 to R169: the reads of the setting registers, their rows, and what they return after reset; TARGET is always a small
positive value (reference configuration: 2 to 15), since it is in band. -/
def Obligations.SettingReadsReturnSettings : Prop :=
  (∀ (d : Word) (s : State),
    exec (.rdTarget d) s = .next { s with rdata := some s.arch.target } ∧
    exec (.rdKp d) s = .next { s with rdata := some s.arch.kp } ∧
    exec (.rdKi d) s = .next { s with rdata := some s.arch.ki } ∧
    exec (.rdKd d) s = .next { s with rdata := some s.arch.kd } ∧
    rowOf (.rdTarget d) = ⟨"RD.TARGET", 0x0400000000#39, 0x7F00000000#39⟩ ∧
    rowOf (.rdKp d) = ⟨"RD.KP", 0x0800000000#39, 0x7F00000000#39⟩ ∧
    rowOf (.rdKi d) = ⟨"RD.KI", 0x0C00000000#39, 0x7F00000000#39⟩ ∧
    rowOf (.rdKd d) = ⟨"RD.KD", 0x1000000000#39, 0x7F00000000#39⟩) ∧
  (∀ s : State, s.params = Config.bcpid1 → safeState s = true → 2 ≤ s.arch.target.toInt ∧ s.arch.target.toInt ≤ 15) ∧
  State.reset.arch.target = 0x0000000A#32 ∧ State.reset.arch.kp = 0x3B03126F#32 ∧
  State.reset.arch.ki = 0x3CA3D70A#32 ∧ State.reset.arch.kd = 0x38D1B717#32

/-- R170 to R175, R177: the reads of the binary32 working registers, their rows, and their examples in the reference
configuration. -/
def Obligations.WorkingReadsReturnRegisters : Prop :=
  (∀ (d : Word) (s : State),
    exec (.rdMeas d) s = .next { s with rdata := some s.arch.meas } ∧
    exec (.rdErr d) s = .next { s with rdata := some s.arch.err } ∧
    exec (.rdPerr d) s = .next { s with rdata := some s.arch.perr } ∧
    exec (.rdInteg d) s = .next { s with rdata := some s.arch.integ } ∧
    exec (.rdDeriv d) s = .next { s with rdata := some s.arch.deriv } ∧
    exec (.rdDuty d) s = .next { s with rdata := some s.arch.duty } ∧
    exec (.rdSampv d) s = .next { s with rdata := some s.arch.sampv }) ∧
  (∀ d : Word,
    rowOf (.rdMeas d) = ⟨"RD.MEAS", 0x1400000000#39, 0x7F00000000#39⟩ ∧
    rowOf (.rdErr d) = ⟨"RD.ERR", 0x1800000000#39, 0x7F00000000#39⟩ ∧
    rowOf (.rdPerr d) = ⟨"RD.PERR", 0x1C00000000#39, 0x7F00000000#39⟩ ∧
    rowOf (.rdInteg d) = ⟨"RD.INTEG", 0x2000000000#39, 0x7F00000000#39⟩ ∧
    rowOf (.rdDeriv d) = ⟨"RD.DERIV", 0x2400000000#39, 0x7F00000000#39⟩ ∧
    rowOf (.rdDuty d) = ⟨"RD.DUTY", 0x2800000000#39, 0x7F00000000#39⟩ ∧
    rowOf (.rdSampv d) = ⟨"RD.SAMPV", 0x3000000000#39, 0x7F00000000#39⟩) ∧
  (∀ s : State, safeState s = true → s.arch.perr = s.arch.err) ∧
  (∀ (x : BitVec 28) (s t : State), s.params = Config.bcpid1 → adcResult s = 512#16 → exec (.tick x) s = .next t →
    t.arch.meas = 0x4120280A#32) ∧
  (∀ (x : BitVec 28) (s t : State), s.params = Config.bcpid1 → adcResult s = 410#16 → exec (.sample x) s = .next t →
    t.arch.sampv = 0x41004010#32) ∧
  State.reset.arch.err = 0x00000000#32 ∧ State.reset.arch.perr = 0x00000000#32 ∧
  State.reset.arch.sampv = 0x00000000#32 ∧ State.reset.arch.duty = 0x3F19999A#32 ∧
  (pidCore Config.bcpid1 State.reset.arch 0x41000000#32).integ = 0xBCA3D70A#32 ∧
  (pidCore Config.bcpid1 State.reset.arch 0x41000000#32).deriv = 0xC3480000#32

/-- R176, R178, R179: PWM and ADCRAW are returned zero-extended, TICKCNT whole; their rows, and their examples. -/
def Obligations.NarrowReadsAreZeroExtended : Prop :=
  (∀ (d : Word) (s : State),
    exec (.rdPwm d) s = .next { s with rdata := some (0#16 ++ s.arch.pwm) } ∧
    exec (.rdAdcraw d) s = .next { s with rdata := some (0#16 ++ s.arch.adcraw) } ∧
    exec (.rdTickcnt d) s = .next { s with rdata := some s.arch.tickcnt } ∧
    rowOf (.rdPwm d) = ⟨"RD.PWM", 0x2C00000000#39, 0x7F00000000#39⟩ ∧
    rowOf (.rdAdcraw d) = ⟨"RD.ADCRAW", 0x3400000000#39, 0x7F00000000#39⟩ ∧
    rowOf (.rdTickcnt d) = ⟨"RD.TICKCNT", 0x3800000000#39, 0x7F00000000#39⟩) ∧
  (∀ (x : BitVec 28) (s t : State), exec (.sample x) s = .next t → t.arch.adcraw = adcResult s) ∧
  (∀ (x : BitVec 28) (s t : State), adcResult s = 410#16 → exec (.sample x) s = .next t →
    0#16 ++ t.arch.adcraw = 0x0000019A#32) ∧
  (∀ (x : BitVec 28) (s t : State), exec (.tick x) s = .next t → t.arch.adcraw = adcResult s) ∧
  (0#16 ++ State.reset.arch.pwm = 0x00000099#32) ∧
  (∀ (x : BitVec 28) (t u v : State), exec (.tick x) State.reset = .next t → exec (.tick x) t = .next u →
    exec (.tick x) u = .next v → v.arch.tickcnt = 0x00000003#32)

/-- R181: a read of CMD, of 0x3C or of a misaligned offset returns 0 and changes no state. -/
def Obligations.ReservedReadsReturnZero : Prop :=
  (∀ (a : Offset) (d : Word) (s : State),
    exec (.rdCmd d) s = .next { s with rdata := some 0x00000000#32 } ∧
    exec (.rsvRd3C d) s = .next { s with rdata := some 0x00000000#32 } ∧
    exec (.rsvRdMisalignedA0 a d) s = .next { s with rdata := some 0x00000000#32 } ∧
    exec (.rsvRdMisalignedA10 a d) s = .next { s with rdata := some 0x00000000#32 }) ∧
  (∀ (a : Offset) (d : Word) (s : State), a = 0x00#6 ∨ a = 0x3C#6 ∨ a.extractLsb' 0 2 ≠ 0b00#2 →
    exec (decode (mkTxn false a d)) s = .next { s with rdata := some 0x00000000#32 }) ∧
  rowOf (.rdCmd 0#32) = ⟨"RD.CMD", 0x0000000000#39, 0x7F00000000#39⟩ ∧
  rowOf (.rsvRd3C 0#32) = ⟨"RSV.RD.3C", 0x3C00000000#39, 0x7F00000000#39⟩ ∧
  rowOf (.rsvRdMisalignedA0 0x01#6 0#32) = ⟨"RSV.RD.MISALIGNED.A0", 0x0100000000#39, 0x4100000000#39⟩ ∧
  rowOf (.rsvRdMisalignedA10 0x02#6 0#32) = ⟨"RSV.RD.MISALIGNED.A10", 0x0200000000#39, 0x4300000000#39⟩ ∧
  (∀ s : State, exec (decode (assemble (.rdAt 0x05#6))) s = .next { s with rdata := some 0x00000000#32 })

/-- R182: a write to a read-only offset, to 0x3C or to a misaligned offset changes nothing; the rows and the example. -/
def Obligations.ReservedWritesChangeNothing : Prop :=
  (∀ (a : Offset) (d : Word) (s : State),
    exec (.rsvWrMeas d) s = .next s ∧ exec (.rsvWrErr d) s = .next s ∧ exec (.rsvWrPerr d) s = .next s ∧
    exec (.rsvWrInteg d) s = .next s ∧ exec (.rsvWrDeriv d) s = .next s ∧ exec (.rsvWrDuty d) s = .next s ∧
    exec (.rsvWrPwm d) s = .next s ∧ exec (.rsvWrSampv d) s = .next s ∧ exec (.rsvWrAdcraw d) s = .next s ∧
    exec (.rsvWrTickcnt d) s = .next s ∧ exec (.rsvWr3C d) s = .next s ∧
    exec (.rsvWrMisalignedA0 a d) s = .next s ∧ exec (.rsvWrMisalignedA10 a d) s = .next s) ∧
  (∀ (a : Offset) (d : Word) (s : State), 0x14 ≤ a.toNat ∨ a.extractLsb' 0 2 ≠ 0b00#2 →
    exec (decode (mkTxn true a d)) s = .next s) ∧
  (∀ (a : Offset) (d : Word), 0x14 ≤ a.toNat → a.extractLsb' 0 2 = 0b00#2 →
    (rowOf (decode (mkTxn true a d))).pattern = mkTxn true a 0#32 ∧
    (rowOf (decode (mkTxn true a d))).mask = 0x7F00000000#39) ∧
  rowOf (.rsvWrMisalignedA0 0x01#6 0#32) = ⟨"RSV.WR.MISALIGNED.A0", 0x4100000000#39, 0x4100000000#39⟩ ∧
  rowOf (.rsvWrMisalignedA10 0x02#6 0#32) = ⟨"RSV.WR.MISALIGNED.A10", 0x4200000000#39, 0x4300000000#39⟩ ∧
  (∀ s : State, exec (decode (assemble (.wr .duty 0x3F800000#32))) s = .next s)

/-- R180: a write to CMD with a reserved code, 0x3 to 0xF, changes nothing; the rows and the example. -/
def Obligations.ReservedCommandsChangeNothing : Prop :=
  (∀ (op : BitVec 4) (x : BitVec 28) (s : State),
    exec (.rsvCmd3 x) s = .next s ∧ exec (.rsvCmd4to7 op x) s = .next s ∧ exec (.rsvCmd8toF op x) s = .next s) ∧
  (∀ (d : Word) (s : State), 0x3#4 ≤ cmdOp d → exec (decode (mkTxn true 0x00#6 d)) s = .next s) ∧
  (∀ (op : BitVec 4) (x : BitVec 28),
    rowOf (decode (mkTxn true 0x00#6 (mkCmd 0x3#4 x))) = ⟨"RSV.CMD.3", 0x4000000003#39, 0x7F0000000F#39⟩ ∧
    (op.extractLsb' 2 2 = 0b01#2 →
      rowOf (decode (mkTxn true 0x00#6 (mkCmd op x))) = ⟨"RSV.CMD.4-7", 0x4000000004#39, 0x7F0000000C#39⟩) ∧
    (op.getLsbD 3 = true →
      rowOf (decode (mkTxn true 0x00#6 (mkCmd op x))) = ⟨"RSV.CMD.8-F", 0x4000000008#39, 0x7F00000008#39⟩)) ∧
  (∀ s : State, exec (decode (assemble (.wr .cmd 0x9#32))) s = .next s)

/-- R164: NOP is no state change, whatever D[31:4] holds. -/
def Obligations.NopChangesNothing : Prop :=
  (∀ (x : BitVec 28) (s : State), exec (.nop x) s = .next s) ∧
  rowOf (.nop 0#28) = ⟨"NOP", 0x4000000000#39, 0x7F0000000F#39⟩ ∧
  decode (assemble (.wr .cmd 0xFFFFFFF0#32)) = .nop 0xFFFFFFF#28 ∧ decode (assemble .nop) = .nop 0#28

/-! ## Setting writes (43_register_access.md) -/

/-- R160: WR.TARGET stores a value in band and TARGET_DEFAULT otherwise, and changes nothing else; its row, corner cases and
examples. -/
def Obligations.TargetWriteIsBandOrDefault : Prop :=
  (∀ d : Word, rowOf (.wrTarget d) = ⟨"WR.TARGET", 0x4400000000#39, 0x7F00000000#39⟩) ∧
  (∀ (d : Word) (s : State),
    exec (.wrTarget d) s = .next { s with arch := { s.arch with
      target := if s.params.targetMin.toInt ≤ d.toInt ∧ d.toInt ≤ s.params.targetMax.toInt then d
        else s.params.targetDefault } }) ∧
  (∀ s : State, paramsWellFormed s.params = true →
    exec (.wrTarget s.params.targetMin) s = .next { s with arch := { s.arch with target := s.params.targetMin } } ∧
    exec (.wrTarget s.params.targetMax) s = .next { s with arch := { s.arch with target := s.params.targetMax } }) ∧
  (∀ (d : Word) (s : State), d.toInt = s.params.targetMin.toInt - 1 →
    exec (.wrTarget d) s = .next { s with arch := { s.arch with target := s.params.targetDefault } }) ∧
  (∀ (d : Word) (s : State), s.params = Config.bcpid1 → d.toInt < 0 →
    exec (.wrTarget d) s = .next { s with arch := { s.arch with target := 10#32 } }) ∧
  (∀ s : State, settingsInBand s.params s.arch = true → exec (.wrTarget s.arch.target) s = .next s) ∧
  (∀ s : State, s.params = Config.bcpid1 →
    exec (decode (assemble (.wr .target 7#32))) s = .next { s with arch := { s.arch with target := 7#32 } } ∧
    exec (decode (assemble (.wr .target 16#32))) s = .next { s with arch := { s.arch with target := 10#32 } })

/-- R161, R162, R163: each gain write stores the written pattern if it is in the gain's band and the gain's default otherwise,
and changes nothing else; a NaN or an infinity stores the default; -0.0 and a positive subnormal in band are stored as written
when the band begins at +0.0; a gain of +0.0 makes the product a zero; the rows and the rules' examples. -/
def Obligations.GainWritesAreBandOrDefault : Prop :=
  (∀ d : Word,
    rowOf (.wrKp d) = ⟨"WR.KP", 0x4800000000#39, 0x7F00000000#39⟩ ∧
    rowOf (.wrKi d) = ⟨"WR.KI", 0x4C00000000#39, 0x7F00000000#39⟩ ∧
    rowOf (.wrKd d) = ⟨"WR.KD", 0x5000000000#39, 0x7F00000000#39⟩) ∧
  (∀ ig : F32, f32IsFinite ig = true → f32IsZero (f32Mul ig 0x00000000#32) = true) ∧
  (∀ (d : Word) (s : State),
    exec (.wrKp d) s = .next { s with arch := { s.arch with
      kp := if inband d s.params.kpMin s.params.kpMax then d else s.params.kpDefault } } ∧
    exec (.wrKi d) s = .next { s with arch := { s.arch with
      ki := if inband d s.params.kiMin s.params.kiMax then d else s.params.kiDefault } } ∧
    exec (.wrKd d) s = .next { s with arch := { s.arch with
      kd := if inband d s.params.kdMin s.params.kdMax then d else s.params.kdDefault } }) ∧
  (∀ (lo dflt hi d : F32), gainBandOk lo dflt hi = true →
    (f32IsNaN d = true → inband d lo hi = false) ∧
    (f32IsInf d = true → inband d lo hi = false) ∧
    (lo = 0x00000000#32 → inband 0x80000000#32 lo hi = true ∧ inband 0x00000000#32 lo hi = true) ∧
    (lo = 0x00000000#32 → d.toNat < 0x00800000 → f32Le d hi = true → inband d lo hi = true) ∧
    (f32Sign hi = false → inband (hi + 1#32) lo hi = false)) ∧
  (∀ s : State, s.params = Config.bcpid1 →
    exec (.wrKp 0x3A378034#32) s = .next { s with arch := { s.arch with kp := 0x3A378034#32 } } ∧
    exec (.wrKp 0x3C23D70B#32) s = .next { s with arch := { s.arch with kp := 0x3B03126F#32 } } ∧
    exec (.wrKi 0x3892CCF6#32) s = .next { s with arch := { s.arch with ki := 0x3892CCF6#32 } } ∧
    exec (.wrKi 0x7FC00000#32) s = .next { s with arch := { s.arch with ki := 0x3CA3D70A#32 } } ∧
    exec (.wrKd 0xBF800000#32) s = .next { s with arch := { s.arch with kd := 0x38D1B717#32 } } ∧
    exec (.wrKd 0x3C23D70A#32) s = .next { s with arch := { s.arch with kd := 0x3C23D70A#32 } })

/-- R57: writing the same setting value twice leaves the state as writing it once. -/
def Obligations.SettingWritesAreIdempotent : Prop :=
  ∀ (d : Word) (s t : State), ∀ i ∈ [Instr.wrTarget d, .wrKp d, .wrKi d, .wrKd d],
    exec i s = .next t → exec i t = .next t

/-! ## The sampler (40_sampler.md) -/

/-- R101, R102, R104: SAMPLE writes the scaled conversion to SAMPV and the raw result to ADCRAW and no other register, takes
one answer of the ADC port, and its result is what RD SAMPV then returns; and the rules' corner cases and example. -/
def Obligations.SampleWritesSampvAndAdcraw : Prop :=
  (∀ (x : BitVec 28) (s : State),
    exec (.sample x) s = .next { adcTaken s with arch := { s.arch with
      sampv := scale s.params (adcResult s)
      adcraw := adcResult s } }) ∧
  (∀ (x : BitVec 28) (d : Word) (s t : State), exec (.sample x) s = .next t →
    exec (.rdSampv d) t = .next { t with rdata := some (scale s.params (adcResult s)) }) ∧
  (∀ p : Params, paramsWellFormed p = true → scale p 0#16 = 0x00000000#32) ∧
  scale Config.bcpid1 1023#16 = 0x41A00000#32 ∧ scale Config.bcpid1 512#16 = 0x4120280A#32

/-- R12 and log entry 2: every conversion gives a value in [0, RAW_MAX], and every value of that range is given in some state
that differs in the ADC port's answers alone. -/
def Obligations.ConversionsCoverTheRange : Prop :=
  (∀ s : State, (adcResult s).toNat ≤ s.params.rawMax.toNat) ∧
  (∀ (s : State) (r : Half), r.toNat ≤ s.params.rawMax.toNat → adcResult { s with adcIn := r :: s.adcIn } = r)

/-- R103, general part: for every accepted parameter set Scale gives +0.0 for 0, is never negative and never a NaN, and is
non-decreasing. -/
def Obligations.ScaleIsMonotone : Prop :=
  ∀ p : Params, paramsWellFormed p = true →
    scale p 0#16 = 0x00000000#32 ∧
    (∀ r : Half, r.toNat ≤ p.rawMax.toNat → f32Sign (scale p r) = false ∧ f32IsNaN (scale p r) = false) ∧
    (∀ r r' : Half, r.toNat ≤ r'.toNat → r'.toNat ≤ p.rawMax.toNat → f32Le (scale p r) (scale p r') = true)

/-- R103, reference part: full scale is 20.0 exactly, Scale is strictly increasing, and no raw count gives 8.0 or 10.0. -/
def Obligations.ScaleReferenceConfiguration : Prop :=
  scale Config.bcpid1 1023#16 = 0x41A00000#32 ∧
  (∀ n : Fin 1023, f32Lt (scale Config.bcpid1 (BitVec.ofNat 16 n.val)) (scale Config.bcpid1 (BitVec.ofNat 16 (n.val + 1))) = true) ∧
  (∀ n : Fin 1024, scale Config.bcpid1 (BitVec.ofNat 16 n.val) ≠ 0x41000000#32 ∧
    scale Config.bcpid1 (BitVec.ofNat 16 n.val) ≠ 0x41200000#32)

/-- R102, R104, R121: a SAMPLE before a TICK does not change what the TICK computes from its own conversion: with the same
answer y the two runs end in the same state but for SAMPV. -/
def Obligations.SampleDoesNotDisturbTick : Prop :=
  ∀ (s : State) (x y : Half) (rest : List Half) (i i' : BitVec 28), ∃ s1 t1 t2,
    exec (.sample i) { s with adcIn := x :: y :: rest } = .next s1 ∧
    exec (.tick i') s1 = .next t1 ∧
    exec (.tick i') { s with adcIn := y :: rest } = .next t2 ∧
    t1 = { t2 with arch := { t2.arch with sampv := scale s.params (rawInRange s.params.rawMax x) } }

/-- R101: nothing but RD.ADCRAW reads ADCRAW: changing it changes no other register, no port and no other read's data, in
whatever instruction runs. -/
def Obligations.AdcrawInfluencesNothing : Prop :=
  ∀ (i : Instr) (s : State) (r : Half), (∀ d, i ≠ .rdAdcraw d) → ∃ (t : State) (r' : Half), exec i s = .next t ∧
    exec i { s with arch := { s.arch with adcraw := r } } = .next { t with arch := { t.arch with adcraw := r' } }

/-! ## The PID engine (41_pid.md) -/

/-- R120's pseudocode with R123, R129 and R130: TICK, line by line, for every state; everything not named here is
unchanged. -/
def Obligations.TickFollowsThePseudocode : Prop :=
  ∀ (x : BitVec 28) (s : State),
    exec (.tick x) s = .next (
      let p := s.params
      let raw := adcResult s
      let m := scale p raw
      let e := f32Sub m (i2f s.arch.target.toInt)
      let der := f32Div (f32Sub e s.arch.perr) p.tickInterval
      let ig := f32Mul (f32Add s.arch.integ e) p.tickInterval
      let u := f32Add (f32Add (f32Mul e s.arch.kp) (f32Mul ig s.arch.ki)) (f32Mul der s.arch.kd)
      let d0 := f32Sub s.arch.duty u
      let sat := !inband d0 p.dutyMin p.dutyMax
      let d := if sat then p.dutyReset else d0
      { adcTaken s with arch := { s.arch with
        adcraw := raw
        meas := m
        err := e
        deriv := der
        integ := if sat && p.integResetOnSat then 0x00000000#32 else ig
        duty := d
        pwm := pwmField p d
        perr := e
        tickcnt := BitVec.ofNat 32 ((s.arch.tickcnt.toNat + 1) % 2 ^ 32) } })

/-- R126: the new duty is d0 when d0 is in the closed band, a NaN or any other d0 outside it gives DUTY_RESET, the edges are
kept, and the reference edges are the patterns the rule names. -/
def Obligations.OutOfBandDutyIsRecentered : Prop :=
  (∀ (x : BitVec 28) (s : State), ∃ t, exec (.tick x) s = .next t ∧
    (inband (pidCandidate s.params s.arch (scale s.params (adcResult s))) s.params.dutyMin s.params.dutyMax = true →
      t.arch.duty = pidCandidate s.params s.arch (scale s.params (adcResult s))) ∧
    (inband (pidCandidate s.params s.arch (scale s.params (adcResult s))) s.params.dutyMin s.params.dutyMax = false →
      t.arch.duty = s.params.dutyReset) ∧
    (f32IsNaN (pidCandidate s.params s.arch (scale s.params (adcResult s))) = true → t.arch.duty = s.params.dutyReset)) ∧
  (∀ p : Params, paramsWellFormed p = true → recenter p p.dutyMin = p.dutyMin ∧ recenter p p.dutyMax = p.dutyMax) ∧
  (∀ (p : Params) (d0 : F32), inband d0 p.dutyMin p.dutyMax = false → recenter p d0 = p.dutyReset) ∧
  Config.bcpid1.dutyMin = 0x3DCCCCCD#32 ∧ Config.bcpid1.dutyMax = 0x3F733333#32

/-- R127: with INTEG_RESET_ON_SAT a tick whose d0 is out of band sets INTEG to +0.0; otherwise INTEG keeps the value of step 4;
BCPID-1 has it false. -/
def Obligations.SaturationAndIntegral : Prop :=
  (∀ (x : BitVec 28) (s : State), ∃ t, exec (.tick x) s = .next t ∧
    (s.params.integResetOnSat = true →
      inband (pidCandidate s.params s.arch (scale s.params (adcResult s))) s.params.dutyMin s.params.dutyMax = false →
      t.arch.integ = 0x00000000#32) ∧
    (s.params.integResetOnSat = false ∨
      inband (pidCandidate s.params s.arch (scale s.params (adcResult s))) s.params.dutyMin s.params.dutyMax = true →
      t.arch.integ = f32Mul (f32Add s.arch.integ (pidError s.arch (scale s.params (adcResult s)))) s.params.tickInterval)) ∧
  Config.bcpid1.integResetOnSat = false

/-- R25, R32, R35, R36, R126, R128: from EVERY state with an accepted parameter set, safe or not, a TICK leaves DUTY in band,
PWM = PwmValue(DUTY), ERR = PERR and ADCRAW a possible raw result. -/
def Obligations.TickEstablishesItsInvariants : Prop :=
  ∀ (x : BitVec 28) (s : State), paramsWellFormed s.params = true → ∃ t, exec (.tick x) s = .next t ∧
    inband t.arch.duty t.params.dutyMin t.params.dutyMax = true ∧ pwmFollowsDuty t.params t.arch = true ∧
    errorsAgree t.arch = true ∧ rawInBounds t.params t.arch = true

/-- R135: PidCore writes MEAS, ERR, DERIV, INTEG, DUTY, PWM, PERR and TICKCNT as R120's lines give them, for every parameter
set, every register contents and every binary32 m, and leaves ADCRAW, SAMPV, the settings and TICK_PEND alone; the PWM it
writes is PwmValue(DUTY); and TICK with the draw r is PidCore(S', Scale(r)) where S' is S with ADCRAW ← r. -/
def Obligations.PidCoreIsTickWithoutTheSampler : Prop :=
  (∀ (x : BitVec 28) (s : State), ∃ t, exec (.tick x) s = .next t ∧
    t.arch = pidCore s.params { s.arch with adcraw := adcResult s } (scale s.params (adcResult s))) ∧
  (∀ (p : Params) (r : Arch) (m : F32), pidCore p r m =
    let e := f32Sub m (i2f r.target.toInt)
    let der := f32Div (f32Sub e r.perr) p.tickInterval
    let ig := f32Mul (f32Add r.integ e) p.tickInterval
    let u := f32Add (f32Add (f32Mul e r.kp) (f32Mul ig r.ki)) (f32Mul der r.kd)
    let d0 := f32Sub r.duty u
    let sat := !inband d0 p.dutyMin p.dutyMax
    let d := if sat then p.dutyReset else d0
    { r with
      meas := m
      err := e
      deriv := der
      integ := if sat && p.integResetOnSat then 0x00000000#32 else ig
      duty := d
      pwm := pwmField p d
      perr := e
      tickcnt := BitVec.ofNat 32 ((r.tickcnt.toNat + 1) % 2 ^ 32) }) ∧
  (∀ (p : Params) (r : Arch) (m : F32), paramsWellFormed p = true →
    pwmValue p (pidCore p r m).duty = some ((pidCore p r m).pwm.toNat : Int))

/-- 95_test_vectors.md W1 (R120 to R130): the five ticks of the scenario, from reset, give DUTY and PWM as tabled. -/
def Obligations.ScenarioDutySequence : Prop :=
  let r1 := pidCore Config.bcpid1 State.reset.arch 0x41000000#32
  let r2 := pidCore Config.bcpid1 r1 0x41080000#32
  let r3 := pidCore Config.bcpid1 r2 0x41133333#32
  let r4 := pidCore Config.bcpid1 r3 0x411CCCCD#32
  let r5 := pidCore Config.bcpid1 r4 0x41200000#32
  (r1.duty, r1.pwm) = (0x3F1FD8AE#32, 159#16) ∧ (r2.duty, r2.pwm) = (0x3F1F6988#32, 159#16) ∧
  (r3.duty, r3.pwm) = (0x3F1E1252#32, 157#16) ∧ (r4.duty, r4.pwm) = (0x3F1CA60C#32, 156#16) ∧
  (r5.duty, r5.pwm) = (0x3F1C2301#32, 156#16) ∧ r5.integ = 0xB7AE9C42#32 ∧ r5.tickcnt = 5#32

/-! ## The actuator (42_actuator.md) -/

/-- R151: for every duty in [0, 1] PwmValue is an integer in [0, PWM_TOP], which is what the PWM field holds, and it is
non-decreasing; the reference values; PWM lies in [26, 242] in every safe state of BCPID-1. -/
def Obligations.PwmValueRangeAndMonotone : Prop :=
  (∀ (p : Params) (f : F32), paramsWellFormed p = true → f32Le 0x00000000#32 f = true → f32Le f 0x3F800000#32 = true →
    ∃ v : Nat, pwmValue p f = some (v : Int) ∧ v ≤ p.pwmTop.toNat ∧ (pwmField p f).toNat = v) ∧
  (∀ (p : Params) (f g : F32) (v w : Int), paramsWellFormed p = true → f32Le 0x00000000#32 f = true → f32Le f g = true →
    f32Le g 0x3F800000#32 = true → pwmValue p f = some v → pwmValue p g = some w → v ≤ w) ∧
  pwmValue Config.bcpid1 Config.bcpid1.dutyMin = some 26 ∧ pwmValue Config.bcpid1 Config.bcpid1.dutyMax = some 242 ∧
  pwmValue Config.bcpid1 Config.bcpid1.dutyReset = some 153 ∧
  pwmProduct Config.bcpid1 Config.bcpid1.dutyMin = 0x41CC0000#32 ∧
  pwmProduct Config.bcpid1 Config.bcpid1.dutyMax = 0x43724000#32 ∧
  pwmProduct Config.bcpid1 Config.bcpid1.dutyReset = 0x43190000#32 ∧
  (∀ s : State, s.params = Config.bcpid1 → safeState s = true → 26 ≤ s.arch.pwm.toNat ∧ s.arch.pwm.toNat ≤ 242)

/-- R154: the worked corner cases of PwmValue in the reference configuration. -/
def Obligations.PwmValueWorkedCases : Prop :=
  pwmProduct Config.bcpid1 0x3F000000#32 = 0x42FF0000#32 ∧ pwmValue Config.bcpid1 0x3F000000#32 = some 128 ∧
  pwmProduct Config.bcpid1 0x3DD4D4D5#32 = 0x41D40000#32 ∧ pwmValue Config.bcpid1 0x3DD4D4D5#32 = some 27 ∧
  pwmProduct Config.bcpid1 0x3F1FD8AE#32 = 0x431F38D5#32 ∧ pwmValue Config.bcpid1 0x3F1FD8AE#32 = some 159

/-- R153: the output port is PWM, and a step changes it only by a TICK (TICKCNT then advances) or by reset. -/
def Obligations.PwmPortFollowsPwm : Prop :=
  (∀ s : State, pwmCmp s = s.arch.pwm) ∧
  (∀ s t : State, step s = .next t → pwmCmp t ≠ pwmCmp s →
    t.arch.tickcnt = s.arch.tickcnt + 1#32 ∨ (slotOf s).reset ≠ .low)

/-! ## binary32 arithmetic (00_scope.md). Values are compared as integers of units of 2^-149. -/

/-- R11: round_haz of a finite x is a nearest integer, and in a tie the one farther from zero. -/
def Obligations.RoundHazIsNearestTiesAway : Prop :=
  ∀ x : F32, f32IsFinite x = true → ∃ n : Int, roundHaz x = some n ∧
    2 * |f32Int x - n * 2 ^ 149| ≤ 2 ^ 149 ∧
    (2 * |f32Int x - n * 2 ^ 149| = 2 ^ 149 → |f32Int x| < |n| * 2 ^ 149)

/-- R11: i2f is exact for |n| ≤ 2^24. -/
def Obligations.I2fIsExact : Prop :=
  ∀ n : Int, |n| ≤ 2 ^ 24 → f32IsFinite (i2f n) = true ∧ f32Int (i2f n) = n * 2 ^ 149

/-- R8: a finite sum or difference of finite values is nearest to the exact one, and in a tie its pattern is even. It is a
zero exactly when the exact one is zero, so that e is a zero exactly when MEAS equals TARGET (R120), and x - x is +0.0. That
a zero sum is +0.0 unless both operands are -0.0 is IEEE 754-2008's, which R8 names (log entry 10). -/
def Obligations.AddAndSubRoundToNearestEven : Prop :=
  (∀ a b c : F32, f32IsFinite a = true → f32IsFinite b = true → f32IsFinite c = true → f32IsFinite (f32Add a b) = true →
    |f32Int a + f32Int b - f32Int (f32Add a b)| ≤ |f32Int a + f32Int b - f32Int c| ∧
    (|f32Int a + f32Int b - f32Int (f32Add a b)| = |f32Int a + f32Int b - f32Int c| → f32Int c ≠ f32Int (f32Add a b) →
      f32Mag (f32Add a b) % 2 = 0)) ∧
  (∀ a b c : F32, f32IsFinite a = true → f32IsFinite b = true → f32IsFinite c = true → f32IsFinite (f32Sub a b) = true →
    |f32Int a - f32Int b - f32Int (f32Sub a b)| ≤ |f32Int a - f32Int b - f32Int c| ∧
    (|f32Int a - f32Int b - f32Int (f32Sub a b)| = |f32Int a - f32Int b - f32Int c| → f32Int c ≠ f32Int (f32Sub a b) →
      f32Mag (f32Sub a b) % 2 = 0)) ∧
  (∀ a b : F32, f32IsFinite a = true → f32IsFinite b = true →
    (f32IsZero (f32Add a b) = true ↔ f32Int a + f32Int b = 0) ∧
    (f32IsZero (f32Sub a b) = true ↔ f32Int a = f32Int b) ∧
    (f32Int a + f32Int b = 0 → f32Add a b = if f32Sign a && f32Sign b then 0x80000000#32 else 0x00000000#32) ∧
    (f32Int a = f32Int b → f32Sub a b = if f32Sign a && !f32Sign b then 0x80000000#32 else 0x00000000#32)) ∧
  (∀ x : F32, f32IsFinite x = true → f32Sub x x = 0x00000000#32)

/-- R8: a finite product of finite values is nearest to the exact one, and in a tie its pattern is even. -/
def Obligations.MulRoundsToNearestEven : Prop :=
  ∀ a b c : F32, f32IsFinite a = true → f32IsFinite b = true → f32IsFinite c = true → f32IsFinite (f32Mul a b) = true →
    |f32Int a * f32Int b - f32Int (f32Mul a b) * 2 ^ 149| ≤ |f32Int a * f32Int b - f32Int c * 2 ^ 149| ∧
    (|f32Int a * f32Int b - f32Int (f32Mul a b) * 2 ^ 149| = |f32Int a * f32Int b - f32Int c * 2 ^ 149| →
      f32Int c ≠ f32Int (f32Mul a b) → f32Mag (f32Mul a b) % 2 = 0)

/-- R8: a finite quotient of finite values by a nonzero one is nearest to the exact one (both sides multiplied by the
divisor), and in a tie its pattern is even. -/
def Obligations.DivRoundsToNearestEven : Prop :=
  ∀ a b c : F32, f32IsFinite a = true → f32IsFinite b = true → f32IsZero b = false → f32IsFinite c = true →
    f32IsFinite (f32Div a b) = true →
    |f32Int a * 2 ^ 149 - f32Int (f32Div a b) * f32Int b| ≤ |f32Int a * 2 ^ 149 - f32Int c * f32Int b| ∧
    (|f32Int a * 2 ^ 149 - f32Int (f32Div a b) * f32Int b| = |f32Int a * 2 ^ 149 - f32Int c * f32Int b| →
      f32Int c ≠ f32Int (f32Div a b) → f32Mag (f32Div a b) % 2 = 0)

/-- R8: operations on finite values overflow to an infinity of the exact result's sign exactly from the midpoint between the
largest finite value and 2^128 on, and give a finite value below it. -/
def Obligations.OverflowGoesToInfinity : Prop :=
  (∀ a b : F32, f32IsFinite a = true → f32IsFinite b = true →
    (if (2 ^ 25 - 1) * 2 ^ 252 ≤ |f32Int a + f32Int b| then f32Add a b = f32Inf (decide (f32Int a + f32Int b < 0))
      else f32IsFinite (f32Add a b) = true)) ∧
  (∀ a b : F32, f32IsFinite a = true → f32IsFinite b = true →
    (if (2 ^ 25 - 1) * 2 ^ 252 * 2 ^ 149 ≤ |f32Int a * f32Int b| then f32Mul a b = f32Inf (decide (f32Int a * f32Int b < 0))
      else f32IsFinite (f32Mul a b) = true)) ∧
  (∀ a b : F32, f32IsFinite a = true → f32IsFinite b = true → f32IsZero b = false →
    (if (2 ^ 25 - 1) * 2 ^ 252 * |f32Int b| ≤ |f32Int a| * 2 ^ 149 then f32Div a b = f32Inf (f32Sign a != f32Sign b)
      else f32IsFinite (f32Div a b) = true))

/-- R9, R8: whatever the operands, a NaN result is 0x7FC00000; a NaN operand gives it; and finite operands (with a nonzero
divisor) never give a NaN. What R8 calls the IEEE default results, for infinite operands and for a zero divisor, and the sign
of every product and quotient, are IEEE 754-2008's (log entry 10). -/
def Obligations.NanResultsAreCanonical : Prop :=
  (∀ a b : F32, ∀ r ∈ [f32Add a b, f32Sub a b, f32Mul a b, f32Div a b],
    (f32IsNaN r = true → r = 0x7FC00000#32) ∧ (f32IsNaN a = true ∨ f32IsNaN b = true → r = 0x7FC00000#32)) ∧
  (∀ a b : F32, f32IsFinite a = true → f32IsFinite b = true →
    f32IsNaN (f32Add a b) = false ∧ f32IsNaN (f32Sub a b) = false ∧ f32IsNaN (f32Mul a b) = false ∧
    (f32IsZero b = false → f32IsNaN (f32Div a b) = false)) ∧
  (∀ a b : F32, f32IsInf a = true → f32IsFinite b = true →
    f32Add a b = a ∧ f32Add b a = a ∧ f32Sub a b = a ∧ f32Sub b a = f32Inf (!f32Sign a) ∧
    f32Mul a b = (if f32IsZero b then 0x7FC00000#32 else f32Inf (f32Sign a != f32Sign b)) ∧
    f32Mul b a = (if f32IsZero b then 0x7FC00000#32 else f32Inf (f32Sign a != f32Sign b)) ∧
    f32Div a b = f32Inf (f32Sign a != f32Sign b) ∧
    f32Div b a = (if f32Sign a != f32Sign b then 0x80000000#32 else 0x00000000#32)) ∧
  (∀ a b : F32, f32IsInf a = true → f32IsInf b = true →
    f32Add a b = (if f32Sign a = f32Sign b then a else 0x7FC00000#32) ∧
    f32Sub a b = (if f32Sign a = f32Sign b then 0x7FC00000#32 else a) ∧
    f32Mul a b = f32Inf (f32Sign a != f32Sign b) ∧
    f32Div a b = 0x7FC00000#32) ∧
  (∀ a b : F32, f32IsFinite a = true → f32IsZero b = true →
    f32Div a b = if f32IsZero a then 0x7FC00000#32 else f32Inf (f32Sign a != f32Sign b)) ∧
  (∀ a b : F32, (f32IsNaN (f32Mul a b) = false → f32Sign (f32Mul a b) = (f32Sign a != f32Sign b)) ∧
    (f32IsNaN (f32Div a b) = false → f32Sign (f32Div a b) = (f32Sign a != f32Sign b)))

/-- R10: f32_le is false on NaNs, holds both ways between the zeros, is the order of the exact values on finite operands and
puts the infinities at the ends; inband is the two comparisons, false for a NaN; on int32 it is the signed comparison. -/
def Obligations.ComparisonsFollowTheRule : Prop :=
  (∀ a b : F32, f32IsNaN a = true ∨ f32IsNaN b = true → f32Le a b = false) ∧
  f32Le 0x80000000#32 0x00000000#32 = true ∧ f32Le 0x00000000#32 0x80000000#32 = true ∧
  (∀ a b : F32, f32IsFinite a = true → f32IsFinite b = true → (f32Le a b = true ↔ f32Int a ≤ f32Int b)) ∧
  (∀ a : F32, f32IsNaN a = false → f32Le (f32Inf true) a = true ∧ f32Le a (f32Inf false) = true) ∧
  (∀ a : F32, f32IsFinite a = true → f32Le (f32Inf false) a = false ∧ f32Le a (f32Inf true) = false) ∧
  (∀ v lo hi : F32, (inband v lo hi = true ↔ f32Le lo v = true ∧ f32Le v hi = true) ∧
    (f32IsNaN v = true → inband v lo hi = false)) ∧
  (∀ v lo hi : Word, inbandInt v lo hi = true ↔ lo.toInt ≤ v.toInt ∧ v.toInt ≤ hi.toInt)

/-- R4: which parameter sets are accepted, condition by condition; BCPID-1 is; and the step refuses every other set. -/
def Obligations.ParameterSetsAccepted : Prop :=
  (∀ p : Params, paramsWellFormed p = true ↔
    p.targetMin.toInt ≤ p.targetDefault.toInt ∧ p.targetDefault.toInt ≤ p.targetMax.toInt ∧
    (∀ g ∈ [(p.kpMin, p.kpDefault, p.kpMax), (p.kiMin, p.kiDefault, p.kiMax), (p.kdMin, p.kdDefault, p.kdMax)],
      f32Le g.1 g.2.1 = true ∧ f32Le g.2.1 g.2.2 = true ∧
      f32IsFinite g.1 = true ∧ f32IsFinite g.2.1 = true ∧ f32IsFinite g.2.2 = true) ∧
    f32Le p.dutyMin p.dutyReset = true ∧ f32Le p.dutyReset p.dutyMax = true ∧
    f32Le p.dutyMin p.dutyInit = true ∧ f32Le p.dutyInit p.dutyMax = true ∧
    (∀ d ∈ [p.dutyMin, p.dutyMax, p.dutyReset, p.dutyInit], f32IsFinite d = true) ∧
    f32Le 0x00000000#32 p.dutyMin = true ∧ f32Le p.dutyMax 0x3F800000#32 = true ∧
    (∀ x ∈ [p.tickInterval, p.vRef, p.divK], f32IsFinite x = true ∧ f32Lt 0x00000000#32 x = true) ∧
    1 ≤ p.rawMax.toNat ∧ 1 ≤ p.pwmTop.toNat ∧ p.pwmTop.toNat ≤ 65535) ∧
  paramsWellFormed Config.bcpid1 = true ∧
  (∀ s : State, paramsWellFormed s.params = false → step s = .refused .illFormedParameters)

/-! ## Reset (70_reset_and_hazards.md) -/

/-- R230: RESET gives every register the value the rule lists and does nothing else; in BCPID-1 the values are those shown. -/
def Obligations.ResetGivesTheListedValues : Prop :=
  (∀ s : State, resetOperation s = { s with arch := {
    target := s.params.targetDefault
    kp := s.params.kpDefault
    ki := s.params.kiDefault
    kd := s.params.kdDefault
    meas := 0x00000000#32
    err := 0x00000000#32
    perr := 0x00000000#32
    integ := 0x00000000#32
    deriv := 0x00000000#32
    duty := s.params.dutyInit
    pwm := pwmField s.params s.params.dutyInit
    sampv := 0x00000000#32
    adcraw := 0#16
    tickcnt := 0#32
    tickPend := false } }) ∧
  (∀ s : State, paramsWellFormed s.params = true →
    pwmValue s.params s.params.dutyInit = some ((resetOperation s).arch.pwm.toNat : Int)) ∧
  State.reset.arch = {
    target := 10#32
    kp := 0x3B03126F#32
    ki := 0x3CA3D70A#32
    kd := 0x38D1B717#32
    meas := 0x00000000#32
    err := 0x00000000#32
    perr := 0x00000000#32
    integ := 0x00000000#32
    deriv := 0x00000000#32
    duty := 0x3F19999A#32
    pwm := 153#16
    sampv := 0x00000000#32
    adcraw := 0#16
    tickcnt := 0#32
    tickPend := false }

/-- R231: the reset state satisfies the invariants. -/
def Obligations.ResetStateIsSafe : Prop := safeState State.reset = true

/-- R231, R4, R26: with any accepted parameter set, RESET leaves a safe state, whatever the state before. -/
def Obligations.ResetOperationIsSafe : Prop :=
  ∀ s : State, paramsWellFormed s.params = true → safeState (resetOperation s) = true

/-- R206, R204 and log entry 6: reset at the arbitration point goes before a pending tick and before the waiting transactions,
starts no operation, and loses the strobes; that transactions stay waiting is the model's choice. -/
def Obligations.ResetGoesFirst : Prop :=
  ∀ s : State, paramsWellFormed s.params = true → (slotOf s).reset = .first →
    step s = .next { s with
      arch := resetArch s.params
      waiting := s.waiting ++ (slotOf s).submits
      inputs := s.inputs.tail
      rdata := none
      served := none }

/-- R232: reset during an operation keeps none of its effects: whatever ran, every register has its reset value. -/
def Obligations.ResetDuringAnOperation : Prop :=
  ∀ s : State, paramsWellFormed s.params = true → (slotOf s).reset = .during →
    ∃ t, step s = .next t ∧ t.arch = resetArch s.params ∧ t.params = s.params

/-! ## Events, arbitration and steps (60_exceptions.md, 20_memory.md) -/

/-- R60, R205: when no tick is pending and reset is low, the step is exec of a decoded instruction at the state the arrivals
leave, less that transaction. With one host waiting it is that host's first transaction; with any number of hosts it is the
first transaction of some waiting host, and its entry alone leaves the queue. Two or more hosts use one choice number, which
orderTaken takes (log entry 4). -/
def Obligations.StepRunsTheDecodedTransaction : Prop :=
  (∀ (s : State) (h : Nat) (w : Txn) (rest : List (Nat × Txn)) (i : Instr),
    paramsWellFormed s.params = true → (slotOf s).reset = .low → s.arch.tickPend = false → (slotOf s).strobes = 0 →
    s.waiting ++ (slotOf s).submits = (h, w) :: rest → (∀ e ∈ rest, e.1 = h) → decode w = i →
    wellFormed i = true ∧
    step s = exec i { s with waiting := rest, inputs := s.inputs.tail, rdata := none, served := some h }) ∧
  (∀ s : State, paramsWellFormed s.params = true → (slotOf s).reset = .low → s.arch.tickPend = false →
    (slotOf s).strobes = 0 → s.waiting ++ (slotOf s).submits ≠ [] →
    ∃ (h : Nat) (w : Txn) (pre post : List (Nat × Txn)),
      s.waiting ++ (slotOf s).submits = pre ++ (h, w) :: post ∧ (∀ e ∈ pre, e.1 ≠ h) ∧ wellFormed (decode w) = true ∧
      step s = exec (decode w) {
        (if ∀ e ∈ s.waiting ++ (slotOf s).submits, e.1 = h then s else orderTaken s) with
        waiting := pre ++ post
        inputs := s.inputs.tail
        rdata := none
        served := some h })

/-- R205, R132: a pending tick, or a strobe that arrived, goes before every waiting transaction; its latch is cleared and the
operation is the TICK that a CMD write runs. -/
def Obligations.PendingTickGoesFirst : Prop :=
  ∀ (x : BitVec 28) (s : State), paramsWellFormed s.params = true → (slotOf s).reset = .low →
    s.arch.tickPend = true ∨ 0 < (slotOf s).strobes →
    step s = exec (.tick x) { s with
      arch := { s.arch with tickPend := false }
      waiting := s.waiting ++ (slotOf s).submits
      inputs := s.inputs.tail
      rdata := none
      served := none }

/-- R204: strobes merge: any number of them up to an arbitration point does what one does, and one that finds TICK_PEND set
changes nothing. -/
def Obligations.StrobesMerge : Prop :=
  ∀ (s : State) (n : Nat) (subs : List (Nat × Txn)) (pin : ResetPin) (rest : List Slot),
    step { s with inputs := ⟨n + 1, subs, pin⟩ :: rest } = step { s with inputs := ⟨1, subs, pin⟩ :: rest } ∧
    (s.arch.tickPend = true →
      step { s with inputs := ⟨n, subs, pin⟩ :: rest } = step { s with inputs := ⟨0, subs, pin⟩ :: rest })

/-- R205: with nothing pending, waiting or arriving, a step changes no architectural state. -/
def Obligations.IdleStepChangesNoRegister : Prop :=
  ∀ s : State, paramsWellFormed s.params = true → (slotOf s).reset = .low → s.arch.tickPend = false →
    (slotOf s).strobes = 0 → s.waiting = [] → (slotOf s).submits = [] →
    step s = .next { s with inputs := s.inputs.tail, rdata := none, served := none }

/-- R205, U8 and log entry 4: the order between hosts is open: each host that waits is the next one served for some choice of
the arbiter, and the step is exec of that host's first transaction, at the state with its entry taken out of the queue. A
choice number is used up only when another host waits too. -/
def Obligations.AnyWaitingHostMayBeNext : Prop :=
  ∀ (s : State) (h : Nat), paramsWellFormed s.params = true → (slotOf s).reset = .low → s.arch.tickPend = false →
    (slotOf s).strobes = 0 → h ∈ hostsOf (s.waiting ++ (slotOf s).submits) →
    ∃ (n : Nat) (t : State) (w : Txn) (pre post : List (Nat × Txn)),
      s.waiting ++ (slotOf s).submits = pre ++ (h, w) :: post ∧ (∀ e ∈ pre, e.1 ≠ h) ∧
      step { s with orderIn := n :: s.orderIn } = .next t ∧
      exec (decode w) { s with
        waiting := pre ++ post
        inputs := s.inputs.tail
        orderIn := if ∀ e ∈ s.waiting ++ (slotOf s).submits, e.1 = h then n :: s.orderIn else s.orderIn
        rdata := none
        served := some h } = .next t ∧
      t.served = some h ∧ hostQueue h (s.waiting ++ (slotOf s).submits) = w :: hostQueue h t.waiting

/-- R63: each host's transactions are started in its order of issue: after a step, host by host, the queue is what it was, or
the served host's queue less its first transaction. Of a step without reset this is R63's and R205's; that it also holds of a
step with reset is the model's choice: waiting transactions outlast a reset (log entry 6) and one that reset cuts off is not
tried again (log entry 7). -/
def Obligations.EachHostKeepsItsOrder : Prop :=
  ∀ (s t : State) (h : Nat), step s = .next t →
    hostQueue h t.waiting = hostQueue h (s.waiting ++ (slotOf s).submits) ∨
    (t.served = some h ∧ ∃ w, hostQueue h (s.waiting ++ (slotOf s).submits) = w :: hostQueue h t.waiting)

/-- R26, R32, R35, R36: every step keeps the invariants, from every safe state, for every transaction, strobe, reset, draw and
order. -/
def Obligations.StepKeepsSafeStates : Prop :=
  ∀ s t : State, safeState s = true → step s = .next t → safeState t = true

/-- R200: no instruction and no step ends in a fault or a refusal, whatever the operands and the state, as long as the
parameter set is accepted; and the parameter set never changes. -/
def Obligations.NothingTraps : Prop :=
  (∀ (i : Instr) (s : State), ∃ t, exec i s = .next t) ∧
  (∀ s : State, paramsWellFormed s.params = true → ∃ t, step s = .next t ∧ t.params = s.params)

/-- R21 to R25, R27 to R35: which instruction can change each register, and that none changes TICK_PEND (R40, R132) or
anything at the ports but the ADC's answers, the free-value counter and the read data. -/
def Obligations.RegistersAreWrittenOnlyByTheirInstructions : Prop :=
  ∀ (i : Instr) (s t : State), exec i s = .next t →
    (t.arch.target ≠ s.arch.target → ∃ d, i = .wrTarget d) ∧
    (t.arch.kp ≠ s.arch.kp → ∃ d, i = .wrKp d) ∧
    (t.arch.ki ≠ s.arch.ki → ∃ d, i = .wrKi d) ∧
    (t.arch.kd ≠ s.arch.kd → ∃ d, i = .wrKd d) ∧
    (t.arch.meas ≠ s.arch.meas ∨ t.arch.err ≠ s.arch.err ∨ t.arch.perr ≠ s.arch.perr ∨ t.arch.integ ≠ s.arch.integ ∨
      t.arch.deriv ≠ s.arch.deriv ∨ t.arch.duty ≠ s.arch.duty ∨ t.arch.pwm ≠ s.arch.pwm ∨
      t.arch.tickcnt ≠ s.arch.tickcnt → ∃ x, i = .tick x) ∧
    (t.arch.sampv ≠ s.arch.sampv → ∃ x, i = .sample x) ∧
    (t.arch.adcraw ≠ s.arch.adcraw ∨ t.adcIn ≠ s.adcIn ∨ t.freeUsed ≠ s.freeUsed → ∃ x, i = .tick x ∨ i = .sample x) ∧
    (t.rdata ≠ s.rdata → txnW (encode i) = false) ∧
    t.arch.tickPend = s.arch.tickPend ∧ t.params = s.params ∧ t.waiting = s.waiting ∧ t.inputs = s.inputs ∧
    t.orderIn = s.orderIn ∧ t.served = s.served

/-- R62: without reset, a step either leaves TICKCNT and all of MEAS, ERR, PERR, INTEG, DERIV, DUTY and PWM as they were, or
advances TICKCNT by one; so equal TICKCNT values around a read show that no TICK ran there. -/
def Obligations.TickcntShowsEveryTick : Prop :=
  ∀ s t : State, step s = .next t → (slotOf s).reset = .low →
    (t.arch.tickcnt = s.arch.tickcnt ∧ t.arch.meas = s.arch.meas ∧ t.arch.err = s.arch.err ∧ t.arch.perr = s.arch.perr ∧
      t.arch.integ = s.arch.integ ∧ t.arch.deriv = s.arch.deriv ∧ t.arch.duty = s.arch.duty ∧ t.arch.pwm = s.arch.pwm) ∨
    (t.arch.tickcnt = s.arch.tickcnt + 1#32 ∧ t.arch.tickcnt ≠ s.arch.tickcnt)

/-- R61, R65: TARGET is never torn: after any step it is the value before, TARGET_DEFAULT, or the whole data word of one
waiting WR.TARGET. -/
def Obligations.TargetIsNeverTorn : Prop :=
  ∀ s t : State, step s = .next t →
    t.arch.target = s.arch.target ∨ t.arch.target = s.params.targetDefault ∨
    ∃ e ∈ s.waiting ++ (slotOf s).submits, decode e.2 = .wrTarget t.arch.target

/-- R240, R63: a read directly after any transaction of the same host returns the register as that transaction left it. -/
def Obligations.ReadSeesThePrecedingTransaction : Prop :=
  ∀ (s : State) (h : Nat) (w : Txn) (a : Offset) (d : Word), paramsWellFormed s.params = true → s.inputs = [] →
    s.arch.tickPend = false → s.waiting = [(h, w), (h, mkTxn false a d)] →
    ∃ t u, step s = .next t ∧ exec (decode w) { s with waiting := [(h, mkTxn false a d)], rdata := none, served := some h } = .next t ∧
      step t = .next u ∧ u.rdata = some (readOffset t.arch a) ∧ u.arch = t.arch

/-! ## The host's side (30_encoding.md) -/

/-- R86, R87 with W3, W4, W6: the channel's kP example is one write of 7e-4, another selector issues nothing, and in BCPID-1 the
target selector stores the digit sum when it is in 2 to 15 and 10 otherwise. -/
def Obligations.ChannelSetsAndFallsBack : Prop :=
  chanSet Config.referenceHost '2' 3 4 = [0x483A378034#39] ∧
  (∀ (hp : HostParams) (d0 d1 : Fin 10) (c : Char), c ≠ '1' → c ≠ '2' → c ≠ '3' → c ≠ '4' →
    chanSet hp c d0 d1 = chanInvalid) ∧
  (∀ (hp : HostParams) (d0 d1 : Fin 10) (s : State), s.params = Config.bcpid1 → ∃ w, chanSet hp '1' d0 d1 = [w] ∧
    exec (decode w) s = .next { s with arch := { s.arch with
      target := if 2 ≤ d0.val + d1.val ∧ d0.val + d1.val ≤ 15 then BitVec.ofNat 32 (d0.val + d1.val) else 10#32 } })

/-- R53: byte lane k of a word is D[8k+7:8k], so the four lanes, the highest first, make up the word. -/
def Obligations.ByteLanesAreLittleEndian : Prop :=
  ∀ d : Word, byteLane d 3 ++ (byteLane d 2 ++ (byteLane d 1 ++ byteLane d 0)) = d ∧
    ∀ k < 4, ∀ j < 8, (byteLane d k).getLsbD j = d.getLsbD (8 * k + j)

/-- R88, R89, R91 with R14 and R160: the expansions of TRIM.DEC, TRIM.INC and RMW.TARGET, and what their writes store: the
exact integer t - 1, t + 1 or t + delta where the trim condition holds and it is in the band, and TARGET_DEFAULT otherwise,
also where it is no int32 (log entry 17 for the word that then stands for it). Nothing else changes. -/
def Obligations.HostTargetUpdatesStoreBandOrDefault : Prop :=
  (∀ (hp : HostParams) (p : Params) (v : F32) (t : Word) (delta : Int),
    trimDec hp p v t = [0x4000000002#39, 0x3000000000#39, 0x0400000000#39, trimDecWrite hp p v t] ∧
    trimInc hp p v t = [0x4000000002#39, 0x3000000000#39, 0x0400000000#39, trimIncWrite hp p v t] ∧
    rmwTarget p t delta = [0x0400000000#39, rmwTargetWrite p t delta]) ∧
  (∀ (hp : HostParams) (v : F32) (t : Word) (delta : Int) (s : State),
    exec (decode (trimDecWrite hp s.params v t)) s = .next { s with arch := { s.arch with
      target := if f32Lt hp.trimLow v = true ∧ s.params.targetMin.toInt ≤ t.toInt - 1 ∧ t.toInt - 1 ≤ s.params.targetMax.toInt
        then BitVec.ofInt 32 (t.toInt - 1) else s.params.targetDefault } } ∧
    exec (decode (trimIncWrite hp s.params v t)) s = .next { s with arch := { s.arch with
      target := if f32Lt v hp.trimHigh = true ∧ s.params.targetMin.toInt ≤ t.toInt + 1 ∧ t.toInt + 1 ≤ s.params.targetMax.toInt
        then BitVec.ofInt 32 (t.toInt + 1) else s.params.targetDefault } } ∧
    exec (decode (rmwTargetWrite s.params t delta)) s = .next { s with arch := { s.arch with
      target := if s.params.targetMin.toInt ≤ t.toInt + delta ∧ t.toInt + delta ≤ s.params.targetMax.toInt
        then BitVec.ofInt 32 (t.toInt + delta) else s.params.targetDefault } }) ∧
  Config.referenceHost.trimLow = 0x40000000#32 ∧ Config.referenceHost.trimHigh = 0x41700000#32
end

