-- ==== Sys2Proof/Laws/Fields.lean ====
section
/-! SUPPORT. The fields of a transaction word and of a CMD word (30_encoding.md R80, R81): what mkTxn and mkCmd put together,
the field functions take apart, and a mask is applied field by field. -/

namespace Sys2Proof

theorem getLsbD_mkTxn (w : Bool) (a : Offset) (d : Word) (i : Nat) :
    (mkTxn w a d).getLsbD i = if i < 32 then d.getLsbD i else if i < 38 then a.getLsbD (i - 32) else (decide (i = 38) && w) := by
  simp only [mkTxn, BitVec.getLsbD_append, BitVec.getLsbD_ofBool]
  by_cases h1 : i < 32
  · simp [h1, show i < 38 by omega]
  · by_cases h2 : i < 38
    · simp [h1, h2, show i - 32 < 6 by omega]
    · simp [h1, h2, show (i - 38 = 0) = (i = 38) by apply propext; omega]

@[simp] theorem txnW_mkTxn (w : Bool) (a : Offset) (d : Word) : txnW (mkTxn w a d) = w := by
  simp only [txnW, getLsbD_mkTxn]
  simp

@[simp] theorem txnA_mkTxn (w : Bool) (a : Offset) (d : Word) : txnA (mkTxn w a d) = a := by
  apply BitVec.eq_of_getLsbD_eq
  intro i hi
  simp only [txnA, BitVec.getLsbD_extractLsb', getLsbD_mkTxn]
  simp [hi, show ¬ 32 + i < 32 by omega, show 32 + i < 38 by omega]

@[simp] theorem txnD_mkTxn (w : Bool) (a : Offset) (d : Word) : txnD (mkTxn w a d) = d := by
  apply BitVec.eq_of_getLsbD_eq
  intro i hi
  simp only [txnD, BitVec.getLsbD_extractLsb', getLsbD_mkTxn]
  simp [hi]

/-- A word is its three fields (R80). -/
theorem mkTxn_fields (t : Txn) : mkTxn (txnW t) (txnA t) (txnD t) = t := by
  apply BitVec.eq_of_getLsbD_eq
  intro i hi
  simp only [getLsbD_mkTxn, txnA, txnD, txnW, BitVec.getLsbD_extractLsb']
  by_cases h1 : i < 32
  · simp [h1]
  · by_cases h2 : i < 38
    · simp [h1, h2, show i - 32 < 6 by omega, show 32 + (i - 32) = i by omega]
    · have : i = 38 := by omega
      subst this
      simp

theorem and_mkTxn (w w' : Bool) (a a' : Offset) (d d' : Word) :
    mkTxn w a d &&& mkTxn w' a' d' = mkTxn (w && w') (a &&& a') (d &&& d') := by
  apply BitVec.eq_of_getLsbD_eq
  intro i hi
  simp only [BitVec.getLsbD_and, getLsbD_mkTxn]
  split_ifs <;> cases decide (i = 38) <;> simp

/-- Different fields, different words. -/
theorem mkTxn_inj {w w' : Bool} {a a' : Offset} {d d' : Word} (h : mkTxn w a d = mkTxn w' a' d') :
    w = w' ∧ a = a' ∧ d = d' :=
  ⟨by simpa using congrArg txnW h, by simpa using congrArg txnA h, by simpa using congrArg txnD h⟩

theorem getLsbD_mkCmd (op : BitVec 4) (ign : BitVec 28) (i : Nat) :
    (mkCmd op ign).getLsbD i = if i < 4 then op.getLsbD i else ign.getLsbD (i - 4) := by
  simp only [mkCmd, BitVec.getLsbD_append]

@[simp] theorem cmdOp_mkCmd (op : BitVec 4) (ign : BitVec 28) : cmdOp (mkCmd op ign) = op := by
  apply BitVec.eq_of_getLsbD_eq
  intro i hi
  simp only [cmdOp, BitVec.getLsbD_extractLsb', getLsbD_mkCmd]
  simp [hi]

@[simp] theorem cmdIgn_mkCmd (op : BitVec 4) (ign : BitVec 28) : cmdIgn (mkCmd op ign) = ign := by
  apply BitVec.eq_of_getLsbD_eq
  intro i hi
  simp only [cmdIgn, BitVec.getLsbD_extractLsb', getLsbD_mkCmd]
  simp [hi]

theorem mkCmd_fields (d : Word) : mkCmd (cmdOp d) (cmdIgn d) = d := by
  apply BitVec.eq_of_getLsbD_eq
  intro i hi
  simp only [getLsbD_mkCmd, cmdOp, cmdIgn, BitVec.getLsbD_extractLsb']
  by_cases h : i < 4
  · simp [h]
  · simp [h, show i - 4 < 28 by omega, show 4 + (i - 4) = i by omega]

theorem and_mkCmd (op op' : BitVec 4) (ign ign' : BitVec 28) :
    mkCmd op ign &&& mkCmd op' ign' = mkCmd (op &&& op') (ign &&& ign') := by
  apply BitVec.eq_of_getLsbD_eq
  intro i hi
  simp only [BitVec.getLsbD_and, getLsbD_mkCmd]
  split_ifs <;> simp

/-- The decoder on the fields (R82). -/
theorem decode_mkTxn (w : Bool) (a : Offset) (d : Word) :
    decode (mkTxn w a d) = if w then decodeWrite a d else decodeRead a d := by
  simp [decode]

/-- The aligned offsets (R50). -/
theorem offset_cases : ∀ a : Offset, a.getLsbD 0 = false → a.getLsbD 1 = false →
    a = 0x00#6 ∨ a = 0x04#6 ∨ a = 0x08#6 ∨ a = 0x0C#6 ∨ a = 0x10#6 ∨ a = 0x14#6 ∨ a = 0x18#6 ∨ a = 0x1C#6 ∨
    a = 0x20#6 ∨ a = 0x24#6 ∨ a = 0x28#6 ∨ a = 0x2C#6 ∨ a = 0x30#6 ∨ a = 0x34#6 ∨ a = 0x38#6 ∨ a = 0x3C#6 := by decide

/-- The command codes by row (R82). -/
theorem code_cases : ∀ op : BitVec 4, op = 0x0#4 ∨ op = 0x1#4 ∨ op = 0x2#4 ∨ op = 0x3#4 ∨
    (op.getLsbD 3 = true ∧ op ≠ 0x0#4 ∧ op ≠ 0x1#4 ∧ op ≠ 0x2#4 ∧ op ≠ 0x3#4) ∨
    (op.getLsbD 3 = false ∧ (op.extractLsb' 2 2 == 0b01#2) = true ∧
      op ≠ 0x0#4 ∧ op ≠ 0x1#4 ∧ op ≠ 0x2#4 ∧ op ≠ 0x3#4) := by decide

/-- A misaligned even offset (R82). -/
theorem offset_A10 : ∀ a : Offset, (a.extractLsb' 0 2 == 0b10#2) = true ↔ (a.getLsbD 0 = false ∧ a.getLsbD 1 = true) := by
  decide

theorem decodeWrite_command (d : Word) : decodeWrite 0x00#6 d = decodeCommand d := rfl

theorem decodeWrite_A0 {a : Offset} (d : Word) (h : a.getLsbD 0 = true) : decodeWrite a d = .rsvWrMisalignedA0 a d := by
  simp only [decodeWrite, h, if_true]

theorem decodeWrite_A10 {a : Offset} (d : Word) (h0 : a.getLsbD 0 = false) (h1 : a.getLsbD 1 = true) :
    decodeWrite a d = .rsvWrMisalignedA10 a d := by
  simp only [decodeWrite, h0, h1, if_true, Bool.false_eq_true, if_false]

theorem decodeRead_A0 {a : Offset} (d : Word) (h : a.getLsbD 0 = true) : decodeRead a d = .rsvRdMisalignedA0 a d := by
  simp only [decodeRead, h, if_true]

theorem decodeRead_A10 {a : Offset} (d : Word) (h0 : a.getLsbD 0 = false) (h1 : a.getLsbD 1 = true) :
    decodeRead a d = .rsvRdMisalignedA10 a d := by
  simp only [decodeRead, h0, h1, if_true, Bool.false_eq_true, if_false]

/-- The decoder on a CMD word, code by code (R82). -/
theorem decodeCommand_mkCmd (op : BitVec 4) (ign : BitVec 28) : decodeCommand (mkCmd op ign) =
    if op = 0x0#4 then .nop ign else if op = 0x1#4 then .tick ign else if op = 0x2#4 then .sample ign
    else if op = 0x3#4 then .rsvCmd3 ign else if op.getLsbD 3 then .rsvCmd8toF op ign else .rsvCmd4to7 op ign := by
  simp only [decodeCommand, cmdOp_mkCmd, cmdIgn_mkCmd]

/-- The table's masks, field by field (R82). -/
theorem mask_offset : 0x7F00000000#39 = mkTxn true 0x3F#6 0#32 := by decide

theorem mask_command : 0x7F0000000F#39 = mkTxn true 0x3F#6 (mkCmd 0xF#4 0#28) := by decide

theorem mask_command_4to7 : 0x7F0000000C#39 = mkTxn true 0x3F#6 (mkCmd 0xC#4 0#28) := by decide

theorem mask_command_8toF : 0x7F00000008#39 = mkTxn true 0x3F#6 (mkCmd 0x8#4 0#28) := by decide

theorem mask_misalignedA0 : 0x4100000000#39 = mkTxn true 0x01#6 0#32 := by decide

theorem mask_misalignedA10 : 0x4300000000#39 = mkTxn true 0x03#6 0#32 := by decide

end Sys2Proof
end

