-- ==== Sys2Proof/Laws/State.lean ====
section
/-! SUPPORT. One lemma per field and update of State, so that no later proof unfolds a record update. The proofs stand in
parentheses so that simp rewrites with the lemma instead of asking the kernel to compare whole updated states. -/

namespace Sys2Proof.Machine

/-! withArch -/

@[simp] theorem withArch_params (s : State) (r : Arch) : (withArch s r).params = s.params := (rfl)

@[simp] theorem withArch_arch (s : State) (r : Arch) : (withArch s r).arch = r := (rfl)

@[simp] theorem withArch_waiting (s : State) (r : Arch) : (withArch s r).waiting = s.waiting := (rfl)

@[simp] theorem withArch_inputs (s : State) (r : Arch) : (withArch s r).inputs = s.inputs := (rfl)

@[simp] theorem withArch_adcIn (s : State) (r : Arch) : (withArch s r).adcIn = s.adcIn := (rfl)

@[simp] theorem withArch_orderIn (s : State) (r : Arch) : (withArch s r).orderIn = s.orderIn := (rfl)

@[simp] theorem withArch_freeUsed (s : State) (r : Arch) : (withArch s r).freeUsed = s.freeUsed := (rfl)

@[simp] theorem withArch_rdata (s : State) (r : Arch) : (withArch s r).rdata = s.rdata := (rfl)

@[simp] theorem withArch_served (s : State) (r : Arch) : (withArch s r).served = s.served := (rfl)

@[simp] theorem withArch_self (s : State) : withArch s s.arch = s := (rfl)

@[simp] theorem withArch_withArch (s : State) (r r' : Arch) : withArch (withArch s r) r' = withArch s r' := (rfl)

/-! respond -/

@[simp] theorem respond_params (s : State) (v : Word) : (respond s v).params = s.params := (rfl)

@[simp] theorem respond_arch (s : State) (v : Word) : (respond s v).arch = s.arch := (rfl)

@[simp] theorem respond_waiting (s : State) (v : Word) : (respond s v).waiting = s.waiting := (rfl)

@[simp] theorem respond_inputs (s : State) (v : Word) : (respond s v).inputs = s.inputs := (rfl)

@[simp] theorem respond_adcIn (s : State) (v : Word) : (respond s v).adcIn = s.adcIn := (rfl)

@[simp] theorem respond_orderIn (s : State) (v : Word) : (respond s v).orderIn = s.orderIn := (rfl)

@[simp] theorem respond_freeUsed (s : State) (v : Word) : (respond s v).freeUsed = s.freeUsed := (rfl)

@[simp] theorem respond_rdata (s : State) (v : Word) : (respond s v).rdata = some v := (rfl)

@[simp] theorem respond_served (s : State) (v : Word) : (respond s v).served = s.served := (rfl)

/-! resetOperation -/

@[simp] theorem resetOperation_params (s : State) : (resetOperation s).params = s.params := (rfl)

@[simp] theorem resetOperation_arch (s : State) : (resetOperation s).arch = resetArch s.params := (rfl)

@[simp] theorem resetOperation_waiting (s : State) : (resetOperation s).waiting = s.waiting := (rfl)

@[simp] theorem resetOperation_inputs (s : State) : (resetOperation s).inputs = s.inputs := (rfl)

@[simp] theorem resetOperation_adcIn (s : State) : (resetOperation s).adcIn = s.adcIn := (rfl)

@[simp] theorem resetOperation_orderIn (s : State) : (resetOperation s).orderIn = s.orderIn := (rfl)

@[simp] theorem resetOperation_freeUsed (s : State) : (resetOperation s).freeUsed = s.freeUsed := (rfl)

@[simp] theorem resetOperation_rdata (s : State) : (resetOperation s).rdata = s.rdata := (rfl)

@[simp] theorem resetOperation_served (s : State) : (resetOperation s).served = s.served := (rfl)

/-! adcTaken (adcIn and freeUsed change) -/

@[simp] theorem adcTaken_params (s : State) : (adcTaken s).params = s.params := by
  unfold adcTaken
  split <;> rfl

@[simp] theorem adcTaken_arch (s : State) : (adcTaken s).arch = s.arch := by
  unfold adcTaken
  split <;> rfl

@[simp] theorem adcTaken_waiting (s : State) : (adcTaken s).waiting = s.waiting := by
  unfold adcTaken
  split <;> rfl

@[simp] theorem adcTaken_inputs (s : State) : (adcTaken s).inputs = s.inputs := by
  unfold adcTaken
  split <;> rfl

@[simp] theorem adcTaken_orderIn (s : State) : (adcTaken s).orderIn = s.orderIn := by
  unfold adcTaken
  split <;> rfl

@[simp] theorem adcTaken_rdata (s : State) : (adcTaken s).rdata = s.rdata := by
  unfold adcTaken
  split <;> rfl

@[simp] theorem adcTaken_served (s : State) : (adcTaken s).served = s.served := by
  unfold adcTaken
  split <;> rfl

theorem adcTaken_adcIn (s : State) : (adcTaken s).adcIn = s.adcIn.tail := by
  unfold adcTaken
  split <;> simp [*]

theorem adcTaken_freeUsed (s : State) : (adcTaken s).freeUsed = if s.adcIn = [] then s.freeUsed + 1 else s.freeUsed := by
  unfold adcTaken
  split <;> simp [*]

/-! sampled -/

@[simp] theorem sampled_params (s : State) : (sampled s).params = s.params := by
  rw [sampled, withArch_params, adcTaken_params]

@[simp] theorem sampled_arch (s : State) : (sampled s).arch = { s.arch with adcraw := adcResult s } := by
  rw [sampled, withArch_arch]

@[simp] theorem sampled_waiting (s : State) : (sampled s).waiting = s.waiting := by
  rw [sampled, withArch_waiting, adcTaken_waiting]

@[simp] theorem sampled_inputs (s : State) : (sampled s).inputs = s.inputs := by
  rw [sampled, withArch_inputs, adcTaken_inputs]

@[simp] theorem sampled_orderIn (s : State) : (sampled s).orderIn = s.orderIn := by
  rw [sampled, withArch_orderIn, adcTaken_orderIn]

@[simp] theorem sampled_rdata (s : State) : (sampled s).rdata = s.rdata := by
  rw [sampled, withArch_rdata, adcTaken_rdata]

@[simp] theorem sampled_served (s : State) : (sampled s).served = s.served := by
  rw [sampled, withArch_served, adcTaken_served]

/-! tickOperation -/

@[simp] theorem tickOperation_params (s : State) : (tickOperation s).params = s.params := by
  rw [tickOperation, withArch_params, sampled_params]

@[simp] theorem tickOperation_arch (s : State) : (tickOperation s).arch = pidCore s.params { s.arch with adcraw := adcResult s } (sampleValue s) := by
  rw [tickOperation, withArch_arch, sampled_arch]

@[simp] theorem tickOperation_waiting (s : State) : (tickOperation s).waiting = s.waiting := by
  rw [tickOperation, withArch_waiting, sampled_waiting]

@[simp] theorem tickOperation_inputs (s : State) : (tickOperation s).inputs = s.inputs := by
  rw [tickOperation, withArch_inputs, sampled_inputs]

@[simp] theorem tickOperation_orderIn (s : State) : (tickOperation s).orderIn = s.orderIn := by
  rw [tickOperation, withArch_orderIn, sampled_orderIn]

@[simp] theorem tickOperation_rdata (s : State) : (tickOperation s).rdata = s.rdata := by
  rw [tickOperation, withArch_rdata, sampled_rdata]

@[simp] theorem tickOperation_served (s : State) : (tickOperation s).served = s.served := by
  rw [tickOperation, withArch_served, sampled_served]

/-! orderTaken (orderIn and freeUsed change) -/

@[simp] theorem orderTaken_params (s : State) : (orderTaken s).params = s.params := by
  unfold orderTaken
  split <;> rfl

@[simp] theorem orderTaken_arch (s : State) : (orderTaken s).arch = s.arch := by
  unfold orderTaken
  split <;> rfl

@[simp] theorem orderTaken_waiting (s : State) : (orderTaken s).waiting = s.waiting := by
  unfold orderTaken
  split <;> rfl

@[simp] theorem orderTaken_inputs (s : State) : (orderTaken s).inputs = s.inputs := by
  unfold orderTaken
  split <;> rfl

@[simp] theorem orderTaken_adcIn (s : State) : (orderTaken s).adcIn = s.adcIn := by
  unfold orderTaken
  split <;> rfl

@[simp] theorem orderTaken_rdata (s : State) : (orderTaken s).rdata = s.rdata := by
  unfold orderTaken
  split <;> rfl

@[simp] theorem orderTaken_served (s : State) : (orderTaken s).served = s.served := by
  unfold orderTaken
  split <;> rfl

/-! arrivals -/

@[simp] theorem arrivals_params (s : State) : (arrivals s).params = s.params := (rfl)

@[simp] theorem arrivals_arch (s : State) : (arrivals s).arch = { s.arch with tickPend := s.arch.tickPend || decide (0 < (slotOf s).strobes) } := (rfl)

@[simp] theorem arrivals_waiting (s : State) : (arrivals s).waiting = s.waiting ++ (slotOf s).submits := (rfl)

@[simp] theorem arrivals_inputs (s : State) : (arrivals s).inputs = s.inputs.tail := (rfl)

@[simp] theorem arrivals_adcIn (s : State) : (arrivals s).adcIn = s.adcIn := (rfl)

@[simp] theorem arrivals_orderIn (s : State) : (arrivals s).orderIn = s.orderIn := (rfl)

@[simp] theorem arrivals_freeUsed (s : State) : (arrivals s).freeUsed = s.freeUsed := (rfl)

@[simp] theorem arrivals_rdata (s : State) : (arrivals s).rdata = none := (rfl)

@[simp] theorem arrivals_served (s : State) : (arrivals s).served = none := (rfl)

/-! aborted (rdata and freeUsed change) -/

@[simp] theorem aborted_params (g : Grant) (s : State) : (aborted g s).params = s.params := by
  unfold aborted
  split <;> rfl

@[simp] theorem aborted_arch (g : Grant) (s : State) : (aborted g s).arch = resetArch s.params := by
  unfold aborted
  split <;> rfl

@[simp] theorem aborted_waiting (g : Grant) (s : State) : (aborted g s).waiting = s.waiting := by
  unfold aborted
  split <;> rfl

@[simp] theorem aborted_inputs (g : Grant) (s : State) : (aborted g s).inputs = s.inputs := by
  unfold aborted
  split <;> rfl

@[simp] theorem aborted_adcIn (g : Grant) (s : State) : (aborted g s).adcIn = s.adcIn := by
  unfold aborted
  split <;> rfl

@[simp] theorem aborted_orderIn (g : Grant) (s : State) : (aborted g s).orderIn = s.orderIn := by
  unfold aborted
  split <;> rfl

@[simp] theorem aborted_served (g : Grant) (s : State) : (aborted g s).served = s.served := by
  unfold aborted
  split <;> rfl

end Sys2Proof.Machine
end

