-- ==== Sys2Proof/Laws/Exec.lean ====
section
/-! SUPPORT. Everything an instruction can do, said once: exec_cases. Later proofs cite it instead of unfolding exec. -/

namespace Sys2Proof.Machine

/-- The state an instruction leaves, by kind: SAMPLE, TICK, the setting writes, the answers of reads, and nothing. -/
inductive ExecEffect (s : State) : Instr → State → Prop where
  | sample (ign : BitVec 28) :
      ExecEffect s (.sample ign) (withArch (sampled s) { (sampled s).arch with sampv := sampleValue s })
  | tick (ign : BitVec 28) : ExecEffect s (.tick ign) (tickOperation s)
  | wrTarget (d : Word) : ExecEffect s (.wrTarget d) (withArch s { s.arch with target := targetOrDefault s.params d })
  | wrKp (d : Word) : ExecEffect s (.wrKp d)
      (withArch s { s.arch with kp := bandOrDefault d s.params.kpMin s.params.kpMax s.params.kpDefault })
  | wrKi (d : Word) : ExecEffect s (.wrKi d)
      (withArch s { s.arch with ki := bandOrDefault d s.params.kiMin s.params.kiMax s.params.kiDefault })
  | wrKd (d : Word) : ExecEffect s (.wrKd d)
      (withArch s { s.arch with kd := bandOrDefault d s.params.kdMin s.params.kdMax s.params.kdDefault })
  | read (i : Instr) (v : Word) (hr : txnW (encode i) = false) : ExecEffect s i (respond s v)
  | nothing (i : Instr) (hw : txnW (encode i) = true) : ExecEffect s i s

/-- Every instruction ends in a next state, and this is what it can be (60_exceptions.md R200). -/
theorem exec_cases (i : Instr) (s : State) : ∃ t, exec i s = .next t ∧ ExecEffect s i t := by
  cases i with
  | sample ign => exact ⟨_, rfl, .sample ign⟩
  | tick ign => exact ⟨_, rfl, .tick ign⟩
  | wrTarget d => exact ⟨_, rfl, .wrTarget d⟩
  | wrKp d => exact ⟨_, rfl, .wrKp d⟩
  | wrKi d => exact ⟨_, rfl, .wrKi d⟩
  | wrKd d => exact ⟨_, rfl, .wrKd d⟩
  | nop | rsvCmd3 | rsvCmd4to7 | rsvCmd8toF | rsvWrMeas | rsvWrErr | rsvWrPerr | rsvWrInteg | rsvWrDeriv | rsvWrDuty
  | rsvWrPwm | rsvWrSampv | rsvWrAdcraw | rsvWrTickcnt | rsvWr3C | rsvWrMisalignedA0 | rsvWrMisalignedA10 =>
    exact ⟨_, rfl, .nothing _ (txnW_mkTxn _ _ _)⟩
  | rdCmd | rdTarget | rdKp | rdKi | rdKd | rdMeas | rdErr | rdPerr | rdInteg | rdDeriv | rdDuty | rdPwm | rdSampv
  | rdAdcraw | rdTickcnt | rsvRd3C | rsvRdMisalignedA0 | rsvRdMisalignedA10 =>
    exact ⟨_, rfl, .read _ _ (txnW_mkTxn _ _ _)⟩

/-- The effect of an instruction that ended in t. -/
theorem exec_next {i : Instr} {s t : State} (h : exec i s = .next t) : ExecEffect s i t := by
  obtain ⟨t', h', e⟩ := exec_cases i s
  rw [h'] at h
  cases h
  exact e

/-- No instruction touches the parameter set, the queues of the ports or the record of who was served. -/
theorem exec_env {i : Instr} {s t : State} (h : exec i s = .next t) :
    t.params = s.params ∧ t.waiting = s.waiting ∧ t.inputs = s.inputs ∧ t.orderIn = s.orderIn ∧ t.served = s.served := by
  cases exec_next h <;> simp

end Sys2Proof.Machine
end

