-- ==== Sys2Proof/Laws/Arbiter.lean ====
section
/-! SUPPORT. What the arbiter and a step can do, said once: arbitrate_cases and step_cases (60_exceptions.md R205, R206). -/

namespace Sys2Proof.Machine

theorem mem_hostsOf {h : Nat} {w : List (Nat × Txn)} : h ∈ hostsOf w ↔ ∃ t, (h, t) ∈ w := by
  induction w with
  | nil => simp [hostsOf]
  | cons e w ih =>
    obtain ⟨h', t'⟩ := e
    simp only [hostsOf, List.mem_cons, List.mem_filter, ih, Prod.mk.injEq, decide_eq_true_eq]
    by_cases he : h = h'
    · simp [he]
    · simp [he]

/-- A host that waits has a first transaction; taking it leaves every other host's transactions and its own later ones. -/
theorem takeFirst_spec {h : Nat} {w : List (Nat × Txn)} (hw : h ∈ hostsOf w) :
    ∃ t rest, takeFirst h w = some (t, rest) ∧ (h, t) ∈ w ∧ hostQueue h w = t :: hostQueue h rest ∧
      ∀ h', h' ≠ h → hostQueue h' rest = hostQueue h' w := by
  induction w with
  | nil => simp [hostsOf] at hw
  | cons e w ih =>
    obtain ⟨h', t'⟩ := e
    by_cases he : h' = h
    · subst he
      refine ⟨t', w, by simp [takeFirst], by simp, by simp [hostQueue], fun h' hne => ?_⟩
      simp [hostQueue, Ne.symm hne]
    · have hw' : h ∈ hostsOf w := by
        rw [mem_hostsOf] at hw ⊢
        obtain ⟨t, ht⟩ := hw
        rw [List.mem_cons] at ht
        exact ht.elim (fun h => absurd (Prod.mk.inj h).1.symm he) fun h => ⟨t, h⟩
      obtain ⟨t, rest, h1, h2, h3, h4⟩ := ih hw'
      refine ⟨t, (h', t') :: rest, by simp [takeFirst, he, h1], by simp [h2], ?_, fun h'' hne => ?_⟩
      · simpa [hostQueue, he] using h3
      · have := h4 h'' hne
        unfold hostQueue at this ⊢
        by_cases e : h' = h'' <;> simp [e, this]

/-- Taking host h's first transaction takes one entry out of the list, the first that is h's. -/
theorem takeFirst_append {h : Nat} {t : Txn} {w rest : List (Nat × Txn)} (hf : takeFirst h w = some (t, rest)) :
    ∃ pre post, w = pre ++ (h, t) :: post ∧ rest = pre ++ post ∧ ∀ e ∈ pre, e.1 ≠ h := by
  induction w generalizing rest with
  | nil => simp [takeFirst] at hf
  | cons e w ih =>
    obtain ⟨h', t'⟩ := e
    by_cases he : h' = h
    · subst he
      rw [takeFirst, if_pos rfl] at hf
      cases hf
      exact ⟨[], w, rfl, rfl, by simp⟩
    · rw [takeFirst, if_neg he] at hf
      split at hf
      · rename_i t'' rest' heq
        cases hf
        obtain ⟨pre, post, e1, e2, e3⟩ := ih heq
        exact ⟨(h', t') :: pre, post, by rw [e1]; rfl, by rw [e2]; rfl, by simpa [he] using e3⟩
      · cases hf

/-- A list whose entries are all of one host has that host alone. -/
theorem hostsOf_single {h : Nat} {w : List (Nat × Txn)} (hw : w ≠ []) (hall : ∀ e ∈ w, e.1 = h) : hostsOf w = [h] := by
  obtain ⟨⟨h', t⟩, w, rfl⟩ := List.exists_cons_of_ne_nil hw
  have hh : h' = h := hall (h', t) (by simp)
  subst hh
  have hnil : (hostsOf w).filter (fun x => decide (x ≠ h')) = [] := by
    rw [List.filter_eq_nil_iff]
    intro x hx
    obtain ⟨t', ht'⟩ := mem_hostsOf.1 hx
    simp [show x = h' from hall (x, t') (by simp [ht'])]
  rw [hostsOf, hnil]

/-- With two hosts waiting the arbiter uses one choice number. -/
theorem chooseHost_several {s : State} (hs : ¬ ∀ e ∈ s.waiting, e.1 = (s.waiting.headD (0, 0#39)).1) :
    ∃ h, chooseHost s = some (h, orderTaken s) ∧ h ∈ hostsOf s.waiting := by
  have hw : s.waiting ≠ [] := fun e => hs (by simp [e])
  unfold chooseHost
  split
  · rename_i e
    obtain ⟨⟨h, t⟩, w, e'⟩ := List.exists_cons_of_ne_nil hw
    rw [e'] at e
    simp [hostsOf] at e
  · rename_i h e
    refine absurd (fun x hx => ?_) hs
    have hmem : ∀ x ∈ s.waiting, x.1 = h := fun x hx => by
      have : x.1 ∈ hostsOf s.waiting := mem_hostsOf.2 ⟨x.2, hx⟩
      simpa [e] using this
    obtain ⟨y, w, e'⟩ := List.exists_cons_of_ne_nil hw
    rw [hmem x hx, e', List.headD_cons, hmem y (by simp [e'])]
  · rename_i h h' hs' e
    refine ⟨_, rfl, ?_⟩
    rw [e, List.getD_eq_getElem _ _ (by simpa using Nat.mod_lt _ (Nat.succ_pos _))]
    exact List.getElem_mem _

/-- The arbiter's host, when one waits, is one that waits, and choosing it changes at most the choice numbers. -/
theorem chooseHost_spec {s : State} (hw : s.waiting ≠ []) :
    ∃ h s', chooseHost s = some (h, s') ∧ h ∈ hostsOf s.waiting ∧ (s' = s ∨ s' = orderTaken s) := by
  unfold chooseHost
  have hne : hostsOf s.waiting ≠ [] := by
    obtain ⟨⟨h, t⟩, w, e⟩ := List.exists_cons_of_ne_nil hw
    rw [e]
    simp [hostsOf]
  split
  · contradiction
  · exact ⟨_, _, rfl, by simp [*], .inl rfl⟩
  · rename_i h h' hs heq
    refine ⟨_, _, rfl, ?_, .inr rfl⟩
    rw [heq]
    rw [List.getD_eq_getElem _ _ (by simpa using Nat.mod_lt _ (Nat.succ_pos _))]
    exact List.getElem_mem _

/-- What the arbiter starts, and in which state (R205, R206). -/
theorem arbitrate_cases (pin : ResetPin) (s : State) :
    (pin = .first ∧ arbitrate pin s = (.reset, s)) ∨
    (pin ≠ .first ∧ s.arch.tickPend = true ∧ arbitrate pin s = (.tick, withArch s { s.arch with tickPend := false })) ∨
    (pin ≠ .first ∧ s.arch.tickPend = false ∧ s.waiting = [] ∧ arbitrate pin s = (.idle, s)) ∨
    (pin ≠ .first ∧ s.arch.tickPend = false ∧ ∃ h t rest s', h ∈ hostsOf s.waiting ∧ (s' = s ∨ s' = orderTaken s) ∧
      takeFirst h s.waiting = some (t, rest) ∧
      arbitrate pin s = (.transaction h t, { s' with waiting := rest, served := some h })) := by
  unfold arbitrate
  by_cases hp : pin = .first
  · exact .inl ⟨hp, by simp [hp]⟩
  right
  by_cases ht : s.arch.tickPend = true
  · exact .inl ⟨hp, ht, by simp [hp, ht]⟩
  right
  rw [Bool.not_eq_true] at ht
  by_cases hw : s.waiting = []
  · exact .inl ⟨hp, ht, hw, by simp [hp, ht, chooseHost, hw, hostsOf]⟩
  · right
    obtain ⟨h, s', hc, hm, hs'⟩ := chooseHost_spec hw
    obtain ⟨t, rest, hf, -⟩ := takeFirst_spec hm
    exact ⟨hp, ht, h, t, rest, s', hm, hs', hf, by simp [hp, ht, hc, hf]⟩

/-- The operation a step ran, from the state s1 it was started in. -/
inductive StepRan (g : Grant) (s1 t : State) : Prop where
  | idle (hg : g = .idle) (h : t = s1)
  | reset (hg : g = .reset) (h : t = resetOperation s1)
  | tick (hg : g = .tick) (h : t = tickOperation s1)
  | transaction (host : Nat) (x : Txn) (hg : g = .transaction host x) (h : exec (decode x) s1 = .next t)

/-- Every granted operation runs to its end (R60, R200). -/
theorem perform_cases (g : Grant) (s1 : State) : ∃ t, perform exec g s1 = .next t ∧ StepRan g s1 t := by
  cases g with
  | idle => exact ⟨_, rfl, .idle rfl rfl⟩
  | reset => exact ⟨_, rfl, .reset rfl rfl⟩
  | tick => exact ⟨_, rfl, .tick rfl rfl⟩
  | transaction h x =>
    obtain ⟨t, ht, -⟩ := exec_cases (decode x) s1
    exact ⟨t, ht, .transaction h x rfl ht⟩

/-- Everything a step can do: with an accepted parameter set it runs the granted operation to a state u, and ends in u, or in
what reset during the operation leaves of it. -/
theorem step_cases {s : State} (hp : paramsWellFormed s.params = true) :
    ∃ u, StepRan (arbitrate (slotOf s).reset (arrivals s)).1 (arbitrate (slotOf s).reset (arrivals s)).2 u ∧
      step s = .next (if (slotOf s).reset = .during then aborted (arbitrate (slotOf s).reset (arrivals s)).1 u else u) := by
  obtain ⟨u, hu, hr⟩ :=
    perform_cases (arbitrate (slotOf s).reset (arrivals s)).1 (arbitrate (slotOf s).reset (arrivals s)).2
  refine ⟨u, hr, ?_⟩
  unfold step stepWith
  rw [if_pos hp, hu]
  cases (slotOf s).reset <;> simp [underReset]

/-- A step that has a next state had an accepted parameter set (R4). -/
theorem params_of_step {s t : State} (h : step s = .next t) : paramsWellFormed s.params = true := by
  by_contra hp
  unfold step stepWith at h
  rw [if_neg hp] at h
  cases h

end Sys2Proof.Machine
end

