-- ==== Sys2Proof/Laws/Rounding.lean ====
section
/-! SUPPORT. What the rounding functions of Machine/Binary32.lean do: roundEven and roundMag are monotone, exact on what
they can represent, and return the nearest (ties to the even pattern), as 00_scope.md R8 asks. -/

namespace Sys2Proof.Machine

variable {num den : Nat}

/-! roundEven -/

theorem roundEven_cases (num den : Nat) :
    (roundEven num den = num / den ∧ 2 * (num % den) < den) ∨
    (roundEven num den = num / den + 1 ∧ den < 2 * (num % den)) ∨
    (roundEven num den = num / den + num / den % 2 ∧ 2 * (num % den) = den) := by
  unfold roundEven
  dsimp only
  split
  · exact .inl ⟨rfl, ‹_›⟩
  · split
    · exact .inr (.inl ⟨rfl, ‹_›⟩)
    · exact .inr (.inr ⟨rfl, by omega⟩)

/-- The rounded integer is within half a step of the quotient. -/
theorem roundEven_bounds (hd : 0 < den) :
    2 * (den * roundEven num den) ≤ 2 * num + den ∧ 2 * num ≤ 2 * (den * roundEven num den) + den := by
  have hq := Nat.div_add_mod num den
  have hr := Nat.mod_lt num hd
  obtain ⟨h, h'⟩ | ⟨h, h'⟩ | ⟨h, h'⟩ := roundEven_cases num den
  · rw [h]; omega
  · rw [h, Nat.mul_add]; omega
  · obtain h2 | h2 : num / den % 2 = 0 ∨ num / den % 2 = 1 := by omega
    · rw [h, h2, Nat.add_zero]; omega
    · rw [h, h2, Nat.mul_add]; omega

/-- A tie goes to the even integer. -/
theorem roundEven_tie (hd : 0 < den)
    (h : 2 * (den * roundEven num den) = 2 * num + den ∨ 2 * num = 2 * (den * roundEven num den) + den) :
    roundEven num den % 2 = 0 := by
  have hq := Nat.div_add_mod num den
  have hr := Nat.mod_lt num hd
  obtain ⟨e, h'⟩ | ⟨e, h'⟩ | ⟨e, h'⟩ := roundEven_cases num den
  · rw [e] at h; omega
  · rw [e, Nat.mul_add] at h; omega
  · omega

theorem roundEven_exact (n : Nat) (hd : 0 < den) : roundEven (n * den) den = n := by
  have := roundEven_cases (n * den) den
  rw [Nat.mul_div_cancel _ hd, Nat.mul_mod_left] at this
  omega

/-- Rounding keeps the order of quotients. -/
theorem roundEven_mono {a b c d : Nat} (hb : 0 < b) (hd : 0 < d) (h : a * d ≤ c * b) :
    roundEven a b ≤ roundEven c d := by
  by_contra hlt
  push Not at hlt
  have h1 := (roundEven_bounds (num := a) hb).1
  have h2 := (roundEven_bounds (num := c) hd).2
  have e1 : 2 * (b * roundEven a b) * d ≤ (2 * a + b) * d := Nat.mul_le_mul_right d h1
  have e2 : 2 * c * b ≤ (2 * (d * roundEven c d) + d) * b := Nat.mul_le_mul_right b h2
  have hle : b * d * (roundEven c d + 1) ≤ b * d * roundEven a b := Nat.mul_le_mul_left _ hlt
  have hbd : 0 < b * d := Nat.mul_pos hb hd
  have hge : roundEven a b = roundEven c d + 1 := by
    by_contra hne
    have : b * d * (roundEven c d + 2) ≤ b * d * roundEven a b := Nat.mul_le_mul_left _ (by omega)
    nlinarith
  have t1 : 2 * (b * roundEven a b) = 2 * a + b := by
    refine Nat.eq_of_mul_eq_mul_right hd (le_antisymm e1 ?_)
    rw [hge] at e1 ⊢
    nlinarith
  have t2 : 2 * c = 2 * (d * roundEven c d) + d := by
    refine Nat.eq_of_mul_eq_mul_right hb (le_antisymm e2 ?_)
    rw [hge] at e1
    nlinarith
  have p1 := roundEven_tie hb (.inl t1)
  have p2 := roundEven_tie hd (.inr t2)
  omega

/-- No integer is nearer to the quotient. -/
theorem roundEven_nearest (hd : 0 < den) (j : Nat) :
    |(num : Int) - den * roundEven num den| ≤ |(num : Int) - den * j| := by
  obtain ⟨h1, h2⟩ := roundEven_bounds (num := num) hd
  by_cases hj : j = roundEven num den
  · rw [hj]
  have hz : 2 * |(num : Int) - den * roundEven num den| ≤ den := by
    rw [← abs_two, ← abs_mul, abs_le]
    constructor <;> zify at h1 h2 <;> linarith
  have hfar : (den : Int) ≤ |(den : Int) * roundEven num den - den * j| := by
    rw [← mul_sub, abs_mul, Nat.abs_cast]
    have : (1 : Int) ≤ |(roundEven num den : Int) - j| := Int.one_le_abs (by omega)
    nlinarith
  have htri := abs_sub_abs_le_abs_sub ((den : Int) * roundEven num den - den * j) ((den : Int) * roundEven num den - num)
  rw [abs_sub_comm ((den : Int) * roundEven num den) num] at htri
  have he : ((den : Int) * roundEven num den - den * j) - ((den : Int) * roundEven num den - num) = num - den * j := by ring
  rw [he] at htri
  linarith

/-! unitsOfMag -/

/-- A pattern built from k exponent steps and a significand n counts n steps of 2^k. -/
theorem unitsOfMag_steps {n k : Nat} (hn : n ≤ 2 ^ 24) (hk : k = 0 ∨ 2 ^ 23 ≤ n) :
    unitsOfMag (n + k * 2 ^ 23) = n * 2 ^ k := by
  unfold unitsOfMag
  obtain h | h | h : n < 2 ^ 23 ∨ (2 ^ 23 ≤ n ∧ n < 2 ^ 24) ∨ n = 2 ^ 24 := by omega
  · have : k = 0 := by omega
    subst this
    rw [if_pos (by omega)]
    simp
  · rw [if_neg (by omega), show (n + k * 2 ^ 23) % 2 ^ 23 + 2 ^ 23 = n by omega,
      show (n + k * 2 ^ 23) / 2 ^ 23 - 1 = k by omega]
  · rw [if_neg (by omega), show (n + k * 2 ^ 23) % 2 ^ 23 = 0 by omega,
      show (n + k * 2 ^ 23) / 2 ^ 23 - 1 = k + 1 by omega, h, pow_succ]
    ring

/-- Every pattern is k exponent steps and a significand below 2^24. -/
theorem exists_steps (m : Nat) : ∃ n k, m = n + k * 2 ^ 23 ∧ n < 2 ^ 24 ∧ (k = 0 ∨ 2 ^ 23 ≤ n) := by
  by_cases h : m < 2 ^ 23
  · exact ⟨m, 0, by omega, by omega, .inl rfl⟩
  · exact ⟨m % 2 ^ 23 + 2 ^ 23, m / 2 ^ 23 - 1, by omega, by omega, .inr (by omega)⟩

/-! roundMag -/

/-- The pattern roundMag computes before overflow is cut off at infinity. -/
def roundSteps (num den : Nat) : Nat :=
  roundEven num (den * 2 ^ roundShift num den) + roundShift num den * 2 ^ 23

theorem roundMag_eq_min (num den : Nat) : roundMag num den = min (roundSteps num den) infMag := rfl

/-- What the shift leaves of the quotient: at most 24 bits, and exactly 24 when something is shifted out. -/
theorem roundShift_bounds (num den : Nat) :
    num / den < 2 ^ (24 + roundShift num den) ∧ (roundShift num den = 0 ∨ 2 ^ (23 + roundShift num den) ≤ num / den) := by
  unfold roundShift
  by_cases h0 : num / den = 0
  · rw [h0]; simp
  have h1 := Nat.log2_self_le h0
  have h2 := Nat.lt_log2_self (n := num / den)
  refine ⟨lt_of_lt_of_le h2 (Nat.pow_le_pow_right (by omega) (by omega)), ?_⟩
  by_cases h : Nat.log2 (num / den) < 23
  · exact .inl (by omega)
  · right
    rwa [show 23 + (Nat.log2 (num / den) - 23) = Nat.log2 (num / den) by omega]

theorem roundShift_mono {a b c d : Nat} (hb : 0 < b) (hd : 0 < d) (h : a * d ≤ c * b) :
    roundShift a b ≤ roundShift c d := by
  have hq : a / b ≤ c / d := by
    rw [Nat.le_div_iff_mul_le hd]
    have : a / b * d * b ≤ c * b := le_trans (by
      calc a / b * d * b = a / b * b * d := by ring
        _ ≤ a * d := Nat.mul_le_mul_right d (Nat.div_mul_le_self a b)) h
    exact Nat.le_of_mul_le_mul_right this hb
  unfold roundShift
  have : Nat.log2 (a / b) ≤ Nat.log2 (c / d) := by
    by_cases h0 : a / b = 0
    · rw [h0]; simp
    · have h0' : c / d ≠ 0 := fun h' => h0 (Nat.le_zero.1 (h' ▸ hq))
      rw [Nat.le_log2 h0']
      exact le_trans (Nat.log2_self_le h0) hq
  omega

/-- The significand that roundMag rounds to: at most 2^24, and at least 2^23 when something is shifted out. -/
theorem roundEven_shifted (hd : 0 < den) :
    roundEven num (den * 2 ^ roundShift num den) ≤ 2 ^ 24 ∧
    (roundShift num den = 0 ∨ 2 ^ 23 ≤ roundEven num (den * 2 ^ roundShift num den)) := by
  obtain ⟨h1, h2⟩ := roundShift_bounds num den
  generalize roundShift num den = k at h1 h2 ⊢
  have hD : 0 < den * 2 ^ k := Nat.mul_pos hd (by positivity)
  constructor
  · rw [← roundEven_exact (2 ^ 24) hD]
    refine roundEven_mono hD hD (Nat.mul_le_mul_right _ ?_)
    rw [Nat.div_lt_iff_lt_mul hd, pow_add] at h1
    exact le_of_lt (lt_of_lt_of_eq h1 (by ring))
  · refine h2.imp id fun h2 => ?_
    rw [← roundEven_exact (2 ^ 23) hD]
    refine roundEven_mono hD hD (Nat.mul_le_mul_right _ ?_)
    rw [Nat.le_div_iff_mul_le hd, pow_add] at h2
    exact le_of_eq_of_le (by ring) h2

theorem roundSteps_mono {a b c d : Nat} (hb : 0 < b) (hd : 0 < d) (h : a * d ≤ c * b) :
    roundSteps a b ≤ roundSteps c d := by
  have hk := roundShift_mono hb hd h
  have h1 := (roundEven_shifted (num := a) hb).1
  have h2 := (roundEven_shifted (num := c) hd).2
  unfold roundSteps
  obtain hlt | heq := lt_or_eq_of_le hk
  · omega
  · rw [heq]
    have : roundEven a (b * 2 ^ roundShift c d) ≤ roundEven c (d * 2 ^ roundShift c d) := by
      refine roundEven_mono (Nat.mul_pos hb (by positivity)) (Nat.mul_pos hd (by positivity)) ?_
      nlinarith [Nat.mul_le_mul_right (2 ^ roundShift c d) h]
    omega

/-- Rounding keeps the order of the exact values (R8). -/
theorem roundMag_mono {a b c d : Nat} (hb : 0 < b) (hd : 0 < d) (h : a * d ≤ c * b) : roundMag a b ≤ roundMag c d := by
  have := roundSteps_mono hb hd h
  simp only [roundMag_eq_min]
  omega

/-- A value that binary32 holds rounds to itself. -/
theorem roundSteps_exact (m : Nat) (hd : 0 < den) : roundSteps (unitsOfMag m * den) den = m := by
  obtain ⟨n, k, rfl, hn, hk⟩ := exists_steps m
  rw [unitsOfMag_steps (le_of_lt hn) hk]
  have hs : roundShift (n * 2 ^ k * den) den = k := by
    unfold roundShift
    rw [Nat.mul_div_cancel _ hd]
    obtain rfl | hk := hk
    · rw [pow_zero, Nat.mul_one]
      by_cases h0 : n = 0
      · rw [h0]; simp
      · have : Nat.log2 n < 24 := (Nat.log2_lt h0).2 hn
        omega
    · have hpos : n * 2 ^ k ≠ 0 := by positivity
      have hlo : 23 + k ≤ Nat.log2 (n * 2 ^ k) := by
        rw [Nat.le_log2 hpos, pow_add]
        exact Nat.mul_le_mul_right _ hk
      have hhi : Nat.log2 (n * 2 ^ k) < 24 + k := by
        rw [Nat.log2_lt hpos, pow_add]
        exact Nat.mul_lt_mul_of_pos_right hn (by positivity)
      omega
  unfold roundSteps
  rw [hs, show n * 2 ^ k * den = n * (den * 2 ^ k) by ring, roundEven_exact _ (Nat.mul_pos hd (by positivity))]

theorem roundMag_exact {m : Nat} (hm : m ≤ infMag) (hd : 0 < den) : roundMag (unitsOfMag m * den) den = m := by
  rw [roundMag_eq_min, roundSteps_exact m hd]
  omega

theorem roundMag_le_inf (num den : Nat) : roundMag num den ≤ infMag := by
  rw [roundMag_eq_min]
  omega

theorem roundMag_zero (hd : 0 < den) : roundMag 0 den = 0 := by
  have := roundMag_exact (m := 0) (den := den) (by decide) hd
  simpa [unitsOfMag] using this

/-- The pattern order is the order of the values. -/
theorem unitsOfMag_le_iff {m m' : Nat} : unitsOfMag m ≤ unitsOfMag m' ↔ m ≤ m' := by
  have mono : ∀ {m m'}, unitsOfMag m ≤ unitsOfMag m' → m ≤ m' := fun {m m'} h => by
    have := roundSteps_mono (a := unitsOfMag m * 1) (b := 1) (c := unitsOfMag m' * 1) (d := 1) (by omega) (by omega)
      (by omega)
    rwa [roundSteps_exact _ (by omega), roundSteps_exact _ (by omega)] at this
  refine ⟨mono, fun h => ?_⟩
  by_contra hlt
  have h' := mono (m := m') (m' := m) (by omega)
  have : m = m' := by omega
  subst this
  omega

/-- The units of what roundMag finds, before overflow. -/
theorem unitsOfMag_roundSteps (hd : 0 < den) :
    unitsOfMag (roundSteps num den) =
      roundEven num (den * 2 ^ roundShift num den) * 2 ^ roundShift num den := by
  obtain ⟨h1, h2⟩ := roundEven_shifted (num := num) hd
  exact unitsOfMag_steps h1 h2

/-- What lies at or above the binade of num/den is a whole number of its steps. -/
theorem exists_multiple {m k : Nat} (h : k = 0 ∨ 2 ^ (23 + k) ≤ unitsOfMag m) : ∃ j, unitsOfMag m = j * 2 ^ k := by
  obtain rfl | h := h
  · exact ⟨unitsOfMag m, by simp⟩
  obtain ⟨n, e, rfl, hn, he⟩ := exists_steps m
  rw [unitsOfMag_steps (le_of_lt hn) he] at h ⊢
  have hke : k ≤ e := by
    by_contra hlt
    have h1 : n * 2 ^ e < 2 ^ 24 * 2 ^ e := Nat.mul_lt_mul_of_pos_right hn (by positivity)
    have h2 : 2 ^ (24 + e) ≤ 2 ^ (23 + k) := Nat.pow_le_pow_right (by omega) (by omega)
    rw [pow_add 2 24 e] at h2
    omega
  exact ⟨n * 2 ^ (e - k), by rw [mul_assoc, ← pow_add, Nat.sub_add_cancel hke]⟩

/-- No pattern is nearer to num/den than the one roundMag finds before overflow (R8). -/
theorem roundSteps_nearest (hd : 0 < den) (m : Nat) :
    |(num : Int) - den * unitsOfMag (roundSteps num den)| ≤ |(num : Int) - den * unitsOfMag m| := by
  rw [unitsOfMag_roundSteps hd]
  obtain ⟨-, hk⟩ := roundShift_bounds num den
  generalize roundShift num den = k at hk ⊢
  have hD : 0 < den * 2 ^ k := Nat.mul_pos hd (by positivity)
  have key : ∀ j : Nat, |(num : Int) - den * ((roundEven num (den * 2 ^ k) * 2 ^ k : Nat) : Int)| ≤
      |(num : Int) - den * ((j * 2 ^ k : Nat) : Int)| := fun j => by
    have := roundEven_nearest (num := num) hD j
    push_cast at this ⊢
    rw [mul_assoc, mul_assoc] at this
    rwa [mul_comm _ ((2 : Int) ^ k), mul_comm (j : Int)]
  by_cases hm : k = 0 ∨ 2 ^ (23 + k) ≤ unitsOfMag m
  · obtain ⟨j, hj⟩ := exists_multiple hm
    rw [hj]
    exact key j
  · push Not at hm
    obtain ⟨hk0, hlt⟩ := hm
    have hle : 2 ^ (23 + k) * den ≤ num := by
      rw [← Nat.le_div_iff_mul_le hd]
      exact hk.resolve_left hk0
    refine le_trans (key (2 ^ 23)) ?_
    rw [← pow_add]
    have h1 : den * unitsOfMag m ≤ den * 2 ^ (23 + k) := Nat.mul_le_mul_left _ (le_of_lt hlt)
    zify at h1 hle
    rw [abs_of_nonneg (by push_cast; linarith), abs_of_nonneg (by linarith)]
    push_cast
    linarith

/-- Where another pattern is as near, roundMag's pattern (before overflow) is even: ties to even (R8). -/
theorem roundSteps_tie (hd : 0 < den) {m : Nat} (hne : m ≠ roundSteps num den)
    (h : |(num : Int) - den * unitsOfMag (roundSteps num den)| = |(num : Int) - den * unitsOfMag m|) :
    roundSteps num den % 2 = 0 := by
  have hneU : unitsOfMag m ≠ unitsOfMag (roundSteps num den) := fun he => hne <| by
    have a := unitsOfMag_le_iff.1 (le_of_eq he)
    have b := unitsOfMag_le_iff.1 (ge_of_eq he)
    omega
  rw [unitsOfMag_roundSteps hd] at h hneU
  obtain ⟨-, hk⟩ := roundShift_bounds num den
  unfold roundSteps
  suffices hs : roundEven num (den * 2 ^ roundShift num den) % 2 = 0 by omega
  generalize roundShift num den = k at hk h hneU ⊢
  have hD : 0 < den * 2 ^ k := Nat.mul_pos hd (by positivity)
  obtain ⟨b1, b2⟩ := roundEven_bounds (num := num) hD
  apply roundEven_tie hD
  have hz : (den : Int) * (((roundEven num (den * 2 ^ k) * 2 ^ k : Nat)) : Int) =
      ((den * 2 ^ k * roundEven num (den * 2 ^ k) : Nat) : Int) := by push_cast; ring
  rw [hz] at h
  have hU : den * unitsOfMag m ≠ den * 2 ^ k * roundEven num (den * 2 ^ k) := fun he => hneU <| by
    refine Nat.eq_of_mul_eq_mul_left hd (he.trans ?_)
    ring
  have hcast : (den : Int) * unitsOfMag m = ((den * unitsOfMag m : Nat) : Int) := by push_cast; ring
  rw [hcast] at h
  by_cases hm : k = 0 ∨ 2 ^ (23 + k) ≤ unitsOfMag m
  · obtain ⟨j, hj⟩ := exists_multiple hm
    have hDj : den * unitsOfMag m = den * 2 ^ k * j := by rw [hj]; ring
    rw [hDj] at h hU
    have hjn : j ≠ roundEven num (den * 2 ^ k) := fun he => hU (by rw [he])
    generalize roundEven num (den * 2 ^ k) = n at *
    generalize den * 2 ^ k = D at *
    obtain hlt | hgt := lt_or_gt_of_ne hjn
    · have : D * (j + 1) ≤ D * n := Nat.mul_le_mul_left _ hlt
      rw [Nat.mul_add] at this
      rcases abs_cases ((num : Int) - ((D * n : Nat) : Int)) with ⟨e, _⟩ | ⟨e, _⟩ <;>
        rcases abs_cases ((num : Int) - ((D * j : Nat) : Int)) with ⟨f, _⟩ | ⟨f, _⟩ <;>
        rw [e, f] at h <;> omega
    · have : D * (n + 1) ≤ D * j := Nat.mul_le_mul_left _ hgt
      rw [Nat.mul_add] at this
      rcases abs_cases ((num : Int) - ((D * n : Nat) : Int)) with ⟨e, _⟩ | ⟨e, _⟩ <;>
        rcases abs_cases ((num : Int) - ((D * j : Nat) : Int)) with ⟨f, _⟩ | ⟨f, _⟩ <;>
        rw [e, f] at h <;> omega
  · exfalso
    push Not at hm
    obtain ⟨hk0, hlt⟩ := hm
    have hle : 2 ^ (23 + k) * den ≤ num := by
      rw [← Nat.le_div_iff_mul_le hd]
      exact hk.resolve_left hk0
    have hn := roundEven_nearest (num := num) hD (2 ^ 23)
    have e1 : ((den * 2 ^ k : Nat) : Int) * ((2 ^ 23 : Nat) : Int) = ((2 ^ (23 + k) * den : Nat) : Int) := by
      rw [pow_add]; push_cast; ring
    have e2 : ((den * 2 ^ k : Nat) : Int) * (roundEven num (den * 2 ^ k) : Int) =
        ((den * 2 ^ k * roundEven num (den * 2 ^ k) : Nat) : Int) := by push_cast; ring
    rw [e1, e2, h] at hn
    have h1 : den * unitsOfMag m < den * 2 ^ (23 + k) := Nat.mul_lt_mul_of_pos_left hlt hd
    rw [mul_comm den (2 ^ (23 + k))] at h1
    rw [abs_of_nonneg (by omega), abs_of_nonneg (by omega)] at hn
    omega

end Sys2Proof.Machine
end

