-- ==== Sys2Proof/Laws/Binary32.lean ====
section
/-! SUPPORT. The small lemmas of the binary32 functions (00_scope.md R7 to R11): the fields of a packed pattern, what each
operation can return, and how the operations with non-negative operands keep order. -/

namespace Sys2Proof.Machine

/-! Patterns and their fields -/

theorem f32Mag_lt (x : F32) : f32Mag x < 2 ^ 31 := Nat.mod_lt _ (by norm_num)

theorem f32Sign_eq (x : F32) : f32Sign x = decide (2 ^ 31 ≤ x.toNat) := by
  have hx := x.isLt
  unfold f32Sign
  rw [BitVec.getLsbD, Nat.testBit_eq_decide_div_mod_eq, decide_eq_decide]
  omega

theorem toNat_eq_sign_mag (x : F32) : x.toNat = (if f32Sign x then 2 ^ 31 else 0) + f32Mag x := by
  have hx := x.isLt
  rw [f32Sign_eq]
  unfold f32Mag
  by_cases h : 2 ^ 31 ≤ x.toNat <;> simp only [h, decide_true, decide_false, if_true, if_false, Bool.false_eq_true] <;> omega

/-- A pattern is its sign and its magnitude. -/
theorem f32_ext {x y : F32} (hs : f32Sign x = f32Sign y) (hm : f32Mag x = f32Mag y) : x = y :=
  BitVec.eq_of_toNat_eq <| by rw [toNat_eq_sign_mag x, toNat_eq_sign_mag y, hs, hm]

theorem toNat_pack {s : Bool} {m : Nat} (hm : m < 2 ^ 31) : (f32Pack s m).toNat = (if s then 2 ^ 31 else 0) + m := by
  unfold f32Pack
  rw [BitVec.toNat_ofNat]
  cases s <;> simp only [if_true, if_false, Bool.false_eq_true] <;> omega

theorem f32Mag_pack {s : Bool} {m : Nat} (hm : m < 2 ^ 31) : f32Mag (f32Pack s m) = m := by
  unfold f32Mag
  rw [toNat_pack hm]
  cases s <;> simp only [if_true, if_false, Bool.false_eq_true] <;> omega

theorem f32Sign_pack {s : Bool} {m : Nat} (hm : m < 2 ^ 31) : f32Sign (f32Pack s m) = s := by
  rw [f32Sign_eq, toNat_pack hm]
  cases s <;> simp only [if_true, if_false, Bool.false_eq_true, decide_eq_true_eq, decide_eq_false_iff_not] <;> omega

theorem pack_sign_mag (x : F32) : f32Pack (f32Sign x) (f32Mag x) = x :=
  f32_ext (f32Sign_pack (f32Mag_lt x)) (f32Mag_pack (f32Mag_lt x))

theorem infMag_lt : infMag < 2 ^ 31 := by decide

theorem f32Mag_round (s : Bool) (num den : Nat) : f32Mag (f32Round s num den) = roundMag num den :=
  f32Mag_pack (lt_of_le_of_lt (roundMag_le_inf num den) infMag_lt)

theorem f32Sign_round (s : Bool) (num den : Nat) : f32Sign (f32Round s num den) = s :=
  f32Sign_pack (lt_of_le_of_lt (roundMag_le_inf num den) infMag_lt)

theorem f32Sign_neg (x : F32) : f32Sign (f32Neg x) = !f32Sign x := by
  unfold f32Sign f32Neg
  rw [BitVec.getLsbD_xor]
  simp

theorem f32Mag_neg (x : F32) : f32Mag (f32Neg x) = f32Mag x := by
  unfold f32Mag f32Neg
  rw [← BitVec.toNat_setWidth, ← BitVec.toNat_setWidth, BitVec.setWidth_xor]
  congr 1
  simp

/-! What an operation can return: the canonical NaN, or a sign and a magnitude up to infinity's (R9). -/

/-- Not a NaN, or the canonical one. -/
def CanonicalResult (x : F32) : Prop := x = canonicalNaN ∨ f32Mag x ≤ infMag

theorem canonical_pack {s : Bool} {m : Nat} (hm : m ≤ infMag) : CanonicalResult (f32Pack s m) :=
  .inr (le_of_eq_of_le (f32Mag_pack (lt_of_le_of_lt hm infMag_lt)) hm)

theorem canonical_round (s : Bool) (num den : Nat) : CanonicalResult (f32Round s num den) :=
  canonical_pack (roundMag_le_inf num den)

theorem canonical_nan : CanonicalResult canonicalNaN := .inl rfl

theorem canonical_inf (s : Bool) : CanonicalResult (f32Inf s) := canonical_pack (le_refl _)

theorem canonical_zero (s : Bool) : CanonicalResult (f32Zero s) := canonical_pack (Nat.zero_le _)

theorem f32Add_canonical (a b : F32) : CanonicalResult (f32Add a b) := by
  unfold f32Add f32AddFinite
  dsimp only
  split_ifs <;> first | with_reducible exact canonical_nan | with_reducible exact canonical_inf _ | with_reducible exact canonical_zero _ | exact canonical_round _ _ _

theorem f32Mul_canonical (a b : F32) : CanonicalResult (f32Mul a b) := by
  unfold f32Mul
  dsimp only
  split_ifs <;> first | with_reducible exact canonical_nan | with_reducible exact canonical_inf _ | exact canonical_round _ _ _

theorem f32Div_canonical (a b : F32) : CanonicalResult (f32Div a b) := by
  unfold f32Div
  dsimp only
  split_ifs <;> first | with_reducible exact canonical_nan | with_reducible exact canonical_inf _ | with_reducible exact canonical_zero _ | exact canonical_round _ _ _

/-! The operations on finite operands -/

theorem f32IsFinite_iff (x : F32) : f32IsFinite x = true ↔ f32Mag x < infMag := by simp [f32IsFinite]

theorem not_nan_of_finite {x : F32} (h : f32IsFinite x = true) : f32IsNaN x = false := by
  rw [f32IsFinite_iff] at h
  simp only [f32IsNaN, decide_eq_false_iff_not]
  omega

theorem not_inf_of_finite {x : F32} (h : f32IsFinite x = true) : f32IsInf x = false := by
  rw [f32IsFinite_iff] at h
  simp only [f32IsInf, decide_eq_false_iff_not]
  omega

theorem f32Add_of_finite {a b : F32} (ha : f32IsFinite a = true) (hb : f32IsFinite b = true) :
    f32Add a b = f32AddFinite a b := by
  simp [f32Add, not_nan_of_finite ha, not_nan_of_finite hb, not_inf_of_finite ha, not_inf_of_finite hb]

theorem f32Mul_of_finite {a b : F32} (ha : f32IsFinite a = true) (hb : f32IsFinite b = true) :
    f32Mul a b = f32Round (f32Sign a != f32Sign b) (f32Units a * f32Units b) oneUnits := by
  simp [f32Mul, not_nan_of_finite ha, not_nan_of_finite hb, not_inf_of_finite ha, not_inf_of_finite hb]

theorem f32Div_of_finite {a b : F32} (ha : f32IsFinite a = true) (hb : f32IsFinite b = true) (h0 : f32IsZero b = false) :
    f32Div a b = f32Round (f32Sign a != f32Sign b) (f32Units a * oneUnits) (f32Units b) := by
  simp [f32Div, not_nan_of_finite ha, not_nan_of_finite hb, not_inf_of_finite ha, not_inf_of_finite hb, h0]

/-! Comparisons -/

theorem f32Le_iff (a b : F32) :
    f32Le a b = true ↔ f32IsNaN a = false ∧ f32IsNaN b = false ∧ f32Key a ≤ f32Key b := by
  simp [f32Le, and_assoc]

theorem f32Le_refl {a : F32} (h : f32IsNaN a = false) : f32Le a a = true := by simp [f32Le, h]

theorem f32Le_trans {a b c : F32} (h1 : f32Le a b = true) (h2 : f32Le b c = true) : f32Le a c = true := by
  rw [f32Le_iff] at *
  exact ⟨h1.1, h2.2.1, le_trans h1.2.2 h2.2.2⟩

/-- A positive or positive-zero pattern that is no NaN. -/
def NonNegative (x : F32) : Prop := f32Sign x = false ∧ f32Mag x ≤ infMag

theorem NonNegative.le_iff {x y : F32} (hx : NonNegative x) (hy : NonNegative y) :
    f32Le x y = true ↔ f32Mag x ≤ f32Mag y := by
  obtain ⟨sx, mx⟩ := hx
  obtain ⟨sy, my⟩ := hy
  have nx : f32IsNaN x = false := by simp only [f32IsNaN, decide_eq_false_iff_not]; omega
  have ny : f32IsNaN y = false := by simp only [f32IsNaN, decide_eq_false_iff_not]; omega
  rw [f32Le_iff, nx, ny]
  simp [f32Key, sx, sy]

theorem nonNegative_round (num den : Nat) : NonNegative (f32Round false num den) :=
  ⟨f32Sign_round _ _ _, le_of_eq_of_le (f32Mag_round _ _ _) (roundMag_le_inf _ _)⟩

theorem nonNegative_inf : NonNegative (f32Inf false) := by
  refine ⟨f32Sign_pack infMag_lt, ?_⟩
  rw [f32Inf, f32Mag_pack infMag_lt]

/-- A positive finite value, as a parameter or an i2f of a positive integer is. -/
theorem positive_iff (x : F32) : f32IsFinite x = true ∧ f32Lt 0x00000000#32 x = true ↔
    f32Sign x = false ∧ 0 < f32Mag x ∧ f32Mag x < infMag := by
  have h0 : f32Mag 0x00000000#32 = 0 := by decide
  have s0 : f32Sign 0x00000000#32 = false := by decide
  rw [f32IsFinite_iff]
  constructor
  · rintro ⟨hf, hl⟩
    have hn : f32IsNaN x = false := not_nan_of_finite ((f32IsFinite_iff x).2 hf)
    simp only [f32Lt, f32Le, f32Key, h0, s0, hn, Bool.and_eq_true, Bool.not_eq_true', decide_eq_true_eq] at hl
    cases hs : f32Sign x
    · simp [hs, f32IsNaN, h0] at hl ⊢
      omega
    · simp [hs, f32IsNaN, h0] at hl
  · rintro ⟨hs, hp, hf⟩
    have hn : f32IsNaN x = false := not_nan_of_finite ((f32IsFinite_iff x).2 hf)
    refine ⟨hf, ?_⟩
    simp only [f32Lt, f32Le, f32Key, h0, s0, hs, f32IsNaN]
    simp
    omega

/-- Multiplying non-negative values by a positive finite one keeps their order (R8: rounding is monotonic). -/
theorem f32Mul_mono {x y c : F32} (hx : NonNegative x) (hy : NonNegative y) (hc : f32Sign c = false)
    (hc0 : 0 < f32Mag c) (hc1 : f32Mag c < infMag) (h : f32Mag x ≤ f32Mag y) :
    NonNegative (f32Mul x c) ∧ f32Mag (f32Mul x c) ≤ f32Mag (f32Mul y c) := by
  have fc := (f32IsFinite_iff c).2 hc1
  have big : ∀ {z : F32}, NonNegative z → f32Mag z = infMag → f32Mul z c = f32Inf false := fun {z} hz he => by
    have h1 : f32IsNaN z = false := by simp [f32IsNaN, he]
    have h2 : f32IsInf z = true := by simp [f32IsInf, he]
    have h3 : f32IsZero z = false := by rw [f32IsZero, he]; decide
    have h4 : f32IsZero c = false := by simp only [f32IsZero, decide_eq_false_iff_not]; omega
    simp [f32Mul, h1, h2, h3, h4, not_nan_of_finite fc, not_inf_of_finite fc, hz.1, hc]
  have small : ∀ {z : F32}, NonNegative z → f32Mag z < infMag →
      f32Mul z c = f32Round false (f32Units z * f32Units c) oneUnits := fun {z} hz hf => by
    rw [f32Mul_of_finite ((f32IsFinite_iff z).2 hf) fc, hz.1, hc]
    rfl
  obtain ex | ex := lt_or_eq_of_le hx.2
  · rw [small hx ex]
    refine ⟨nonNegative_round _ _, ?_⟩
    obtain ey | ey := lt_or_eq_of_le hy.2
    · rw [small hy ey, f32Mag_round, f32Mag_round]
      refine roundMag_mono (by unfold oneUnits; positivity) (by unfold oneUnits; positivity) (Nat.mul_le_mul_right _ ?_)
      exact Nat.mul_le_mul_right _ (unitsOfMag_le_iff.2 h)
    · rw [big hy ey, f32Mag_round, f32Inf, f32Mag_pack infMag_lt]
      exact roundMag_le_inf _ _
  · have ey : f32Mag y = infMag := le_antisymm hy.2 (ex ▸ h)
    rw [big hx ex, big hy ey]
    exact ⟨nonNegative_inf, le_refl _⟩

/-- Dividing non-negative values by a positive finite one keeps their order. -/
theorem f32Div_mono {x y c : F32} (hx : NonNegative x) (hy : NonNegative y) (hc : f32Sign c = false)
    (hc0 : 0 < f32Mag c) (hc1 : f32Mag c < infMag) (h : f32Mag x ≤ f32Mag y) :
    NonNegative (f32Div x c) ∧ f32Mag (f32Div x c) ≤ f32Mag (f32Div y c) := by
  have fc := (f32IsFinite_iff c).2 hc1
  have zc : f32IsZero c = false := by simp only [f32IsZero, decide_eq_false_iff_not]; omega
  have hu : 0 < f32Units c := by
    have : ¬ unitsOfMag (f32Mag c) ≤ unitsOfMag 0 := fun h => by
      have := unitsOfMag_le_iff.1 h
      omega
    have h0 : unitsOfMag 0 = 0 := by decide
    unfold f32Units
    omega
  have big : ∀ {z : F32}, NonNegative z → f32Mag z = infMag → f32Div z c = f32Inf false := fun {z} hz he => by
    have h1 : f32IsNaN z = false := by simp [f32IsNaN, he]
    have h2 : f32IsInf z = true := by simp [f32IsInf, he]
    simp [f32Div, h1, h2, not_nan_of_finite fc, not_inf_of_finite fc, hz.1, hc]
  have small : ∀ {z : F32}, NonNegative z → f32Mag z < infMag →
      f32Div z c = f32Round false (f32Units z * oneUnits) (f32Units c) := fun {z} hz hf => by
    rw [f32Div_of_finite ((f32IsFinite_iff z).2 hf) fc zc, hz.1, hc]
    rfl
  obtain ex | ex := lt_or_eq_of_le hx.2
  · rw [small hx ex]
    refine ⟨nonNegative_round _ _, ?_⟩
    obtain ey | ey := lt_or_eq_of_le hy.2
    · rw [small hy ey, f32Mag_round, f32Mag_round]
      refine roundMag_mono hu hu (Nat.mul_le_mul_right _ ?_)
      exact Nat.mul_le_mul_right _ (unitsOfMag_le_iff.2 h)
    · rw [big hy ey, f32Mag_round, f32Inf, f32Mag_pack infMag_lt]
      exact roundMag_le_inf _ _
  · have ey : f32Mag y = infMag := le_antisymm hy.2 (ex ▸ h)
    rw [big hx ex, big hy ey]
    exact ⟨nonNegative_inf, le_refl _⟩

/-! Integers -/

/-- An integer up to 2^24 is a binary32 (R11). -/
theorem exists_mag_of_nat {n : Nat} (hn : n ≤ 2 ^ 24) : ∃ m, m < infMag ∧ unitsOfMag m = n * oneUnits := by
  by_cases h0 : n = 0
  · exact ⟨0, by decide, by rw [h0]; decide⟩
  by_cases h24 : n = 2 ^ 24
  · exact ⟨2 ^ 23 + 150 * 2 ^ 23, by decide, by rw [h24]; decide⟩
  have hL := Nat.log2_self_le h0
  have hU := Nat.lt_log2_self (n := n)
  have hlt : Nat.log2 n < 24 := (Nat.log2_lt h0).2 (by omega)
  generalize Nat.log2 n = L at *
  have hs : 2 ^ 23 ≤ n * 2 ^ (23 - L) := by
    calc 2 ^ 23 = 2 ^ L * 2 ^ (23 - L) := by rw [← pow_add]; congr 1; omega
      _ ≤ n * 2 ^ (23 - L) := Nat.mul_le_mul_right _ hL
  have hs' : n * 2 ^ (23 - L) < 2 ^ 24 := by
    calc n * 2 ^ (23 - L) < 2 ^ (L + 1) * 2 ^ (23 - L) := Nat.mul_lt_mul_of_pos_right hU (by positivity)
      _ = 2 ^ 24 := by rw [← pow_add]; congr 1; omega
  refine ⟨n * 2 ^ (23 - L) + (126 + L) * 2 ^ 23, ?_, ?_⟩
  · unfold infMag
    omega
  · rw [unitsOfMag_steps (le_of_lt hs') (.inr hs), mul_assoc, ← pow_add, oneUnits]
    congr 2
    omega

/-- i2f is exact on the integers up to 2^24 (R11), by sign and units. -/
theorem i2f_exact {n : Int} (hn : n.natAbs ≤ 2 ^ 24) :
    f32Mag (i2f n) < infMag ∧ f32Units (i2f n) = n.natAbs * oneUnits ∧ f32Sign (i2f n) = decide (n < 0) := by
  obtain ⟨m, hm, hu⟩ := exists_mag_of_nat hn
  have he : f32Mag (i2f n) = m := by
    rw [i2f, f32Mag_round, ← hu]
    have := roundMag_exact (le_of_lt hm) (den := 1) (by decide)
    rwa [Nat.mul_one] at this
  refine ⟨he ▸ hm, ?_, f32Sign_round _ _ _⟩
  rw [f32Units, he, hu]

/-- i2f keeps the order of natural numbers. -/
theorem i2f_nat_mono {a b : Nat} (h : a ≤ b) : NonNegative (i2f a) ∧ f32Mag (i2f a) ≤ f32Mag (i2f b) := by
  have hs : ∀ n : Nat, decide ((n : Int) < 0) = false := fun n => by simp
  unfold i2f
  rw [hs, hs]
  refine ⟨nonNegative_round _ _, ?_⟩
  rw [f32Mag_round, f32Mag_round]
  exact roundMag_mono (by decide) (by decide) (by
    rw [Int.natAbs_natCast, Int.natAbs_natCast]
    exact Nat.mul_le_mul_right _ (Nat.mul_le_mul_right _ h))

end Sys2Proof.Machine
end

