-- ==== Sys2Proof/Laws/PerInstr.lean ====
section
/-! SUPPORT. Statements made of every instruction, one lemma per constructor. Family Encoding: the word encode gives a
well-formed instruction is selected by that instruction's row of the opcode table (30_encoding.md R82). -/

namespace Sys2Proof.Laws.Encoding

/-- The encoded word is the row's (R82). -/
def Statement (i : Instr) : Prop := wellFormed i = true → rowSelects (rowOf i) (encode i) = true

/-- A row that fixes W and the whole offset selects every word with them. -/
theorem selects_offset {w : Bool} {a : Offset} {pat : Txn} (m : String) (d : Word) (h : pat = mkTxn w a 0#32) :
    rowSelects ⟨m, pat, 0x7F00000000#39⟩ (mkTxn w a d) = true := by
  subst h
  have ha : a &&& 0x3F#6 = a := by
    have : (0x3F#6) = BitVec.allOnes 6 := by decide
    rw [this, BitVec.and_allOnes]
  simp [rowSelects, mask_offset, and_mkTxn, ha]

/-- A row that fixes a command code selects every word with it. -/
theorem selects_command {op : BitVec 4} {pat : Txn} (m : String) (ign : BitVec 28)
    (h : pat = mkTxn true 0x00#6 (mkCmd op 0#28)) :
    rowSelects ⟨m, pat, 0x7F0000000F#39⟩ (mkTxn true 0x00#6 (mkCmd op ign)) = true := by
  subst h
  have ho : op &&& 0xF#4 = op := by
    have : (0xF#4) = BitVec.allOnes 4 := by decide
    rw [this, BitVec.and_allOnes]
  simp [rowSelects, mask_command, and_mkTxn, and_mkCmd, ho]

theorem nop (ign : BitVec 28) : Statement (.nop ign) := fun _ =>
  selects_command _ ign (by decide)

theorem tick (ign : BitVec 28) : Statement (.tick ign) := fun _ =>
  selects_command _ ign (by decide)

theorem sample (ign : BitVec 28) : Statement (.sample ign) := fun _ =>
  selects_command _ ign (by decide)

theorem rsvCmd3 (ign : BitVec 28) : Statement (.rsvCmd3 ign) := fun _ =>
  selects_command _ ign (by decide)

theorem rsvCmd4to7 (op : BitVec 4) (ign : BitVec 28) : Statement (.rsvCmd4to7 op ign) := fun h => by
  have ho : ∀ op : BitVec 4, (op.extractLsb' 2 2 == 0b01#2) = true → op &&& 0xC#4 = 0x4#4 := by decide
  have hp : 0x4000000004#39 = mkTxn true 0x00#6 (mkCmd 0x4#4 0#28) := by decide
  simp [rowSelects, rowOf, encode, mask_command_4to7, and_mkTxn, and_mkCmd, ho op h, hp]

theorem rsvCmd8toF (op : BitVec 4) (ign : BitVec 28) : Statement (.rsvCmd8toF op ign) := fun h => by
  have ho : ∀ op : BitVec 4, op.getLsbD 3 = true → op &&& 0x8#4 = 0x8#4 := by decide
  have hp : 0x4000000008#39 = mkTxn true 0x00#6 (mkCmd 0x8#4 0#28) := by decide
  simp [rowSelects, rowOf, encode, mask_command_8toF, and_mkTxn, and_mkCmd, ho op h, hp]

theorem wrTarget (d : Word) : Statement (.wrTarget d) := fun _ =>
  selects_offset _ d (by decide)

theorem wrKp (d : Word) : Statement (.wrKp d) := fun _ =>
  selects_offset _ d (by decide)

theorem wrKi (d : Word) : Statement (.wrKi d) := fun _ =>
  selects_offset _ d (by decide)

theorem wrKd (d : Word) : Statement (.wrKd d) := fun _ =>
  selects_offset _ d (by decide)

theorem rsvWrMeas (d : Word) : Statement (.rsvWrMeas d) := fun _ =>
  selects_offset _ d (by decide)

theorem rsvWrErr (d : Word) : Statement (.rsvWrErr d) := fun _ =>
  selects_offset _ d (by decide)

theorem rsvWrPerr (d : Word) : Statement (.rsvWrPerr d) := fun _ =>
  selects_offset _ d (by decide)

theorem rsvWrInteg (d : Word) : Statement (.rsvWrInteg d) := fun _ =>
  selects_offset _ d (by decide)

theorem rsvWrDeriv (d : Word) : Statement (.rsvWrDeriv d) := fun _ =>
  selects_offset _ d (by decide)

theorem rsvWrDuty (d : Word) : Statement (.rsvWrDuty d) := fun _ =>
  selects_offset _ d (by decide)

theorem rsvWrPwm (d : Word) : Statement (.rsvWrPwm d) := fun _ =>
  selects_offset _ d (by decide)

theorem rsvWrSampv (d : Word) : Statement (.rsvWrSampv d) := fun _ =>
  selects_offset _ d (by decide)

theorem rsvWrAdcraw (d : Word) : Statement (.rsvWrAdcraw d) := fun _ =>
  selects_offset _ d (by decide)

theorem rsvWrTickcnt (d : Word) : Statement (.rsvWrTickcnt d) := fun _ =>
  selects_offset _ d (by decide)

theorem rsvWr3C (d : Word) : Statement (.rsvWr3C d) := fun _ =>
  selects_offset _ d (by decide)

theorem rsvWrMisalignedA0 (a : Offset) (d : Word) : Statement (.rsvWrMisalignedA0 a d) := fun h => by
  have ho : ∀ a : Offset, a.getLsbD 0 = true → a &&& 0x01#6 = 0x01#6 := by decide
  have hm := mask_misalignedA0
  have hp : 0x4100000000#39 = mkTxn true 0x01#6 0#32 := by decide
  simp only [rowSelects, rowOf, encode]
  rw [hm, and_mkTxn, ho a h]
  simp

theorem rsvWrMisalignedA10 (a : Offset) (d : Word) : Statement (.rsvWrMisalignedA10 a d) := fun h => by
  have ho : ∀ a : Offset, (a.extractLsb' 0 2 == 0b10#2) = true → a &&& 0x03#6 = 0x02#6 := by decide
  have hp : 0x4200000000#39 = mkTxn true 0x02#6 0#32 := by decide
  simp only [rowSelects, rowOf, encode]
  rw [mask_misalignedA10, hp, and_mkTxn, ho a h]
  simp

theorem rdCmd (d : Word) : Statement (.rdCmd d) := fun _ =>
  selects_offset _ d (by decide)

theorem rdTarget (d : Word) : Statement (.rdTarget d) := fun _ =>
  selects_offset _ d (by decide)

theorem rdKp (d : Word) : Statement (.rdKp d) := fun _ =>
  selects_offset _ d (by decide)

theorem rdKi (d : Word) : Statement (.rdKi d) := fun _ =>
  selects_offset _ d (by decide)

theorem rdKd (d : Word) : Statement (.rdKd d) := fun _ =>
  selects_offset _ d (by decide)

theorem rdMeas (d : Word) : Statement (.rdMeas d) := fun _ =>
  selects_offset _ d (by decide)

theorem rdErr (d : Word) : Statement (.rdErr d) := fun _ =>
  selects_offset _ d (by decide)

theorem rdPerr (d : Word) : Statement (.rdPerr d) := fun _ =>
  selects_offset _ d (by decide)

theorem rdInteg (d : Word) : Statement (.rdInteg d) := fun _ =>
  selects_offset _ d (by decide)

theorem rdDeriv (d : Word) : Statement (.rdDeriv d) := fun _ =>
  selects_offset _ d (by decide)

theorem rdDuty (d : Word) : Statement (.rdDuty d) := fun _ =>
  selects_offset _ d (by decide)

theorem rdPwm (d : Word) : Statement (.rdPwm d) := fun _ =>
  selects_offset _ d (by decide)

theorem rdSampv (d : Word) : Statement (.rdSampv d) := fun _ =>
  selects_offset _ d (by decide)

theorem rdAdcraw (d : Word) : Statement (.rdAdcraw d) := fun _ =>
  selects_offset _ d (by decide)

theorem rdTickcnt (d : Word) : Statement (.rdTickcnt d) := fun _ =>
  selects_offset _ d (by decide)

theorem rsvRd3C (d : Word) : Statement (.rsvRd3C d) := fun _ =>
  selects_offset _ d (by decide)

theorem rsvRdMisalignedA0 (a : Offset) (d : Word) : Statement (.rsvRdMisalignedA0 a d) := fun h => by
  have ho : ∀ a : Offset, a.getLsbD 0 = true → a &&& 0x01#6 = 0x01#6 := by decide
  have hm := mask_misalignedA0
  have hp : 0x0100000000#39 = mkTxn false 0x01#6 0#32 := by decide
  simp only [rowSelects, rowOf, encode]
  rw [hm, hp, and_mkTxn, ho a h]
  simp

theorem rsvRdMisalignedA10 (a : Offset) (d : Word) : Statement (.rsvRdMisalignedA10 a d) := fun h => by
  have ho : ∀ a : Offset, (a.extractLsb' 0 2 == 0b10#2) = true → a &&& 0x03#6 = 0x02#6 := by decide
  have hp : 0x0200000000#39 = mkTxn false 0x02#6 0#32 := by decide
  simp only [rowSelects, rowOf, encode]
  rw [mask_misalignedA10, hp, and_mkTxn, ho a h]
  simp

end Sys2Proof.Laws.Encoding
end

