-- ==== Sys2Proof/Tests/Slice0.lean ====
section
/-! SUPPORT. The model's own tests. Expected values come from spec/ (95_test_vectors.md, named as there, and the examples of
the rules), never from the model. After them, for every statement with hypotheses, a witness that meets them. -/

namespace Sys2Proof.Tests

open Sys2Proof.Machine

/-! ## Well-formedness: an ill-formed term for each check -/

theorem test_wf_cmd4to7 : wellFormed (.rsvCmd4to7 0x8#4 0#28) = false ∧ wellFormed (.rsvCmd4to7 0x7#4 0#28) = true := by decide

theorem test_wf_cmd8toF : wellFormed (.rsvCmd8toF 0x7#4 0#28) = false ∧ wellFormed (.rsvCmd8toF 0x8#4 0#28) = true := by decide

theorem test_wf_wrA0 : wellFormed (.rsvWrMisalignedA0 0x06#6 0#32) = false ∧
    wellFormed (.rsvWrMisalignedA0 0x05#6 0#32) = true := by decide

theorem test_wf_wrA10 : wellFormed (.rsvWrMisalignedA10 0x05#6 0#32) = false ∧
    wellFormed (.rsvWrMisalignedA10 0x04#6 0#32) = false ∧ wellFormed (.rsvWrMisalignedA10 0x06#6 0#32) = true := by decide

theorem test_wf_rdA0 : wellFormed (.rsvRdMisalignedA0 0x2E#6 0#32) = false ∧
    wellFormed (.rsvRdMisalignedA0 0x29#6 0#32) = true := by decide

theorem test_wf_rdA10 : wellFormed (.rsvRdMisalignedA10 0x29#6 0#32) = false ∧
    wellFormed (.rsvRdMisalignedA10 0x28#6 0#32) = false ∧ wellFormed (.rsvRdMisalignedA10 0x2E#6 0#32) = true := by decide

/-! ## Parameters: the reference patterns of 00_scope.md R3 are the nearest binary32, and a set that breaks each line of R4 -/

theorem test_parameter_patterns :
    f32OfRatio false 1 100 = Config.bcpid1.tickInterval ∧ f32OfRatio false 1 10 = Config.bcpid1.dutyMin ∧
    f32OfRatio false 95 100 = Config.bcpid1.dutyMax ∧ f32OfRatio false 6 10 = Config.bcpid1.dutyReset ∧
    f32OfRatio false 1 100 = Config.bcpid1.kpMax ∧ f32OfRatio false 1 10 = Config.bcpid1.kiMax ∧
    f32OfRatio false 2 1000 = Config.bcpid1.kpDefault ∧ f32OfRatio false 2 100 = Config.bcpid1.kiDefault ∧
    f32OfRatio false 1 10000 = Config.bcpid1.kdDefault ∧ f32OfRatio false 5 1 = Config.bcpid1.vRef ∧
    f32OfRatio false 1 4 = Config.bcpid1.divK := by decide

theorem test_params_target : paramsWellFormed { Config.bcpid1 with targetDefault := 16#32 } = false := by decide

theorem test_params_gain : paramsWellFormed { Config.bcpid1 with kpDefault := 0x3C23D70B#32 } = false ∧
    paramsWellFormed { Config.bcpid1 with kiMax := 0x7F800000#32 } = false ∧
    paramsWellFormed { Config.bcpid1 with kdMin := 0x7FC00000#32 } = false := by decide

theorem test_params_duty : paramsWellFormed { Config.bcpid1 with dutyInit := 0x3F733334#32 } = false ∧
    paramsWellFormed { Config.bcpid1 with dutyReset := 0x3DCCCCCC#32 } = false ∧
    paramsWellFormed { Config.bcpid1 with dutyMin := 0xBDCCCCCD#32 } = false ∧
    paramsWellFormed { Config.bcpid1 with dutyMax := 0x3F800001#32 } = false := by decide

theorem test_params_positive : paramsWellFormed { Config.bcpid1 with tickInterval := 0x80000000#32 } = false ∧
    paramsWellFormed { Config.bcpid1 with vRef := 0x00000000#32 } = false ∧
    paramsWellFormed { Config.bcpid1 with divK := 0x7F800000#32 } = false ∧
    paramsWellFormed { Config.bcpid1 with rawMax := 0#16 } = false ∧
    paramsWellFormed { Config.bcpid1 with pwmTop := 0#16 } = false := by decide

/-! ## Decoding: words written out from 30_encoding.md R80 to R84 and 95_test_vectors.md, one at least for every row -/

/-- NOP, TICK, SAMPLE (P1, V-SMP-6, V-RSV). -/
theorem test_decode_commands : decode 0x4000000000#39 = .nop 0#28 ∧ decode 0x40FFFFFFF0#39 = .nop 0xFFFFFFF#28 ∧
    decode 0x4000000001#39 = .tick 0#28 ∧ decode 0x4000000002#39 = .sample 0#28 ∧
    decode 0x40FFFFFFF2#39 = .sample 0xFFFFFFF#28 := by decide

/-- W = 1, A = 000000, D = 0...0 0001, bit by bit. -/
theorem test_decode_tick_bits :
    decode (0b1#1 ++ (0b000000#6 ++ 0b00000000000000000000000000000001#32)) = .tick 0#28 := by decide

/-- The reserved command codes (V-RSV). -/
theorem test_decode_reserved_commands : decode 0x4000000003#39 = .rsvCmd3 0#28 ∧
    decode 0x4000000004#39 = .rsvCmd4to7 0x4#4 0#28 ∧ decode 0x4000000017#39 = .rsvCmd4to7 0x7#4 1#28 ∧
    decode 0x4000000008#39 = .rsvCmd8toF 0x8#4 0#28 ∧ decode 0x400000000F#39 = .rsvCmd8toF 0xF#4 0#28 := by decide

/-- The setting writes (V-WR-7, V-WR-8, V-WR-20, V-WR-23). -/
theorem test_decode_setting_writes : decode 0x448000000C#39 = .wrTarget 0x8000000C#32 ∧
    decode 0x483A378034#39 = .wrKp 0x3A378034#32 ∧ decode 0x4C3892CCF6#39 = .wrKi 0x3892CCF6#32 ∧
    decode 0x50BF800000#39 = .wrKd 0xBF800000#32 := by decide

/-- W = 1, A = 001000, D = 0x3A378034, bit by bit. -/
theorem test_decode_wrKp_bits :
    decode (0b1#1 ++ (0b001000#6 ++ 0b00111010001101111000000000110100#32)) = .wrKp 0x3A378034#32 := by decide

/-- Writes of read-only and reserved offsets (V-RSV, P5; the others from R82's rows). -/
theorem test_decode_readonly_writes : decode 0x5441200000#39 = .rsvWrMeas 0x41200000#32 ∧
    decode 0x5800000001#39 = .rsvWrErr 1#32 ∧ decode 0x5C00000001#39 = .rsvWrPerr 1#32 ∧
    decode 0x6000000001#39 = .rsvWrInteg 1#32 ∧ decode 0x6400000001#39 = .rsvWrDeriv 1#32 ∧
    decode 0x683F800000#39 = .rsvWrDuty 0x3F800000#32 ∧ decode 0x6C0000FFFF#39 = .rsvWrPwm 0xFFFF#32 ∧
    decode 0x7000000001#39 = .rsvWrSampv 1#32 ∧ decode 0x7400000001#39 = .rsvWrAdcraw 1#32 ∧
    decode 0x7800000005#39 = .rsvWrTickcnt 5#32 ∧ decode 0x7C00001234#39 = .rsvWr3C 0x1234#32 := by decide

/-- W = 1, A = 101000, D = 0x3F800000, bit by bit. -/
theorem test_decode_rsvWrDuty_bits :
    decode (0b1#1 ++ (0b101000#6 ++ 0b00111111100000000000000000000000#32)) = .rsvWrDuty 0x3F800000#32 := by decide

/-- Misaligned offsets (V-RSV, P5). -/
theorem test_decode_misaligned : decode 0x45FFFFFFFF#39 = .rsvWrMisalignedA0 0x05#6 0xFFFFFFFF#32 ∧
    decode 0x460000000C#39 = .rsvWrMisalignedA10 0x06#6 12#32 ∧ decode 0x2900000000#39 = .rsvRdMisalignedA0 0x29#6 0#32 ∧
    decode 0x2E00000000#39 = .rsvRdMisalignedA10 0x2E#6 0#32 := by decide

/-- The reads of the setting registers and of CMD and 0x3C (V-RD, V-RSV). -/
theorem test_decode_reads_settings : decode 0x0000000000#39 = .rdCmd 0#32 ∧ decode 0x0400000000#39 = .rdTarget 0#32 ∧
    decode 0x0800000000#39 = .rdKp 0#32 ∧ decode 0x0C00000000#39 = .rdKi 0#32 ∧ decode 0x1000000000#39 = .rdKd 0#32 ∧
    decode 0x3C00000000#39 = .rsvRd3C 0#32 := by decide

/-- The reads of the working registers (V-RD, P4). -/
theorem test_decode_reads_working : decode 0x1400000000#39 = .rdMeas 0#32 ∧ decode 0x1800000000#39 = .rdErr 0#32 ∧
    decode 0x1C00000000#39 = .rdPerr 0#32 ∧ decode 0x2000000000#39 = .rdInteg 0#32 ∧ decode 0x2400000000#39 = .rdDeriv 0#32 ∧
    decode 0x28FFFFFFFF#39 = .rdDuty 0xFFFFFFFF#32 ∧ decode 0x2C00000000#39 = .rdPwm 0#32 ∧
    decode 0x3000000000#39 = .rdSampv 0#32 ∧ decode 0x3400000000#39 = .rdAdcraw 0#32 ∧
    decode 0x3800000000#39 = .rdTickcnt 0#32 := by decide

/-- A number that is no 39-bit word is rejected by name; the table's words are not. -/
theorem test_decode_numbers : (∀ e, decodeNat (2 ^ 39) = .error e → e = .notATransactionWord) ∧
    decodeTableWord 40 (2 ^ 39) = none ∧ decodeTableWord 40 0x7FFFFFFFFF = some (.rsvWrMisalignedA0 0x3F#6 0xFFFFFFFF#32) ∧
    decodeTableWord 40 0x4000000002 = some (.sample 0#28) := by
  refine ⟨fun e _ => by cases e; rfl, by decide, by decide, by decide⟩

/-- The assembler's forms (R85): P5's and V-RSV's words. -/
theorem test_assemble : assemble (.wr .duty 0x3F800000#32) = 0x683F800000#39 ∧
    assemble (.wrAt 0x3C#6 0x1234#32) = 0x7C00001234#39 ∧ assemble (.rdAt 0x06#6) = 0x0600000000#39 ∧
    assemble (.rd .tickcnt) = 0x3800000000#39 ∧ assemble .sample = 0x4000000002#39 ∧
    memRead 0x8000 0x802E 4 = some 0x2E00000000#39 ∧ memRead 0x8000 0x8000 2 = none ∧
    valueWord (.int (-1)) = some 0xFFFFFFFF#32 ∧ valueWord (.decimal false 7 10000) = some 0x3A378034#32 := by decide

/-! ## Arithmetic (00_scope.md R8 to R11): IEEE 754 corner cases worked by hand -/

/-- Ties go to even, a product is rounded before it is added, and a subnormal is kept. -/
theorem test_rounding : f32Add 0x4B800000#32 0x3F800000#32 = 0x4B800000#32 ∧
    f32Mul 0x3F800001#32 0x3FC00000#32 = 0x3FC00002#32 ∧ f32Div 0x00000003#32 0x40000000#32 = 0x00000002#32 ∧
    f32Mul 0x00800000#32 0x3F000000#32 = 0x00400000#32 := by decide

/-- Overflow begins at half a unit above the largest finite value; below it the largest finite value remains. -/
theorem test_overflow_edge : f32Add 0x7F7FFFFF#32 0x73000000#32 = 0x7F800000#32 ∧
    f32Add 0x7F7FFFFF#32 0x72FFFFFF#32 = 0x7F7FFFFF#32 := by decide

/-- The invalid operations give the canonical NaN, a division by zero an infinity, and the zeros have their IEEE signs. -/
theorem test_special_results : f32Mul 0x7F800000#32 0x00000000#32 = 0x7FC00000#32 ∧
    f32Sub 0x7F800000#32 0x7F800000#32 = 0x7FC00000#32 ∧ f32Div 0x00000000#32 0x80000000#32 = 0x7FC00000#32 ∧
    f32Div 0xBF800000#32 0x00000000#32 = 0xFF800000#32 ∧ f32Add 0x80000000#32 0x80000000#32 = 0x80000000#32 ∧
    f32Add 0x80000000#32 0x00000000#32 = 0x00000000#32 ∧ f32Sub 0x3F800000#32 0x3F800000#32 = 0x00000000#32 ∧
    f32Add 0x7F800001#32 0x3F800000#32 = 0x7FC00000#32 := by decide

/-- f32_lt (R14) and inband (R10) at the edges (V-WR-9 to V-WR-16). -/
theorem test_comparisons : f32Lt 0x40000000#32 0x4120280A#32 = true ∧ f32Lt 0x41A00000#32 0x41700000#32 = false ∧
    f32Lt 0x80000000#32 0x00000000#32 = false ∧ inband 0x80000000#32 0x00000000#32 0x3C23D70A#32 = true ∧
    inband 0x80000001#32 0x00000000#32 0x3C23D70A#32 = false ∧ inband 0x7F800001#32 0x00000000#32 0x3C23D70A#32 = false := by
  decide

/-! ## One step of each instruction -/

/-- The reset state S0 with the answers the ADC will give. -/
def s0 (draws : List Half) : State := { State.reset with adcIn := draws }

/-- S0 with other registers. -/
def s0With (draws : List Half) (r : Arch) : State := { s0 draws with arch := r }

/-- The registers an outcome leaves. -/
def archOf : Result → Option Arch
  | .next t => some t.arch
  | _ => none

/-- The read data an outcome returns. -/
def dataOf : Result → Option Word
  | .next t => t.rdata
  | _ => none

/-- The instruction of a transaction word, run. -/
def run (w : Txn) (s : State) : Result := exec (decode w) s

/-- V-SMP-1 and V-SMP-6. -/
theorem test_sample : archOf (run 0x4000000002#39 (s0 [512#16])) =
      some { State.reset.arch with sampv := 0x4120280A#32, adcraw := 512#16 } ∧
    run 0x40FFFFFFF2#39 (s0 [512#16]) = run 0x4000000002#39 (s0 [512#16]) := by
  exact ⟨by decide, rfl⟩

/-- V-SMP-7: a TICK takes its own conversion. -/
theorem test_tick_after_sample :
    (archOf (run 0x4000000001#39 (s0With [0#16] { State.reset.arch with sampv := 0x4120280A#32, adcraw := 512#16 }))).map
      (fun r => (r.meas, r.sampv, r.adcraw)) = some (0x00000000#32, 0x4120280A#32, 0#16) := by decide

/-- V-PID-T11: TICK(512) with TARGET = 12. -/
theorem test_tick : archOf (run 0x4000000001#39 (s0With [512#16] { State.reset.arch with target := 12#32 })) =
    some { State.reset.arch with
      target := 12#32
      meas := 0x4120280A#32
      err := 0xBFFEBFB0#32
      perr := 0xBFFEBFB0#32
      deriv := 0xC34705C2#32
      integ := 0xBCA30A0A#32
      duty := 0x3F1FD0DD#32
      pwm := 159#16
      adcraw := 512#16
      tickcnt := 1#32 } := by decide

/-- V-PID-T1: a saturating tick is re-centered and keeps INTEG. -/
theorem test_tick_saturates : archOf (run 0x4000000001#39 (s0With [0#16]
      { State.reset.arch with kp := 0x3C23D70A#32, kd := 0x3C23D70A#32, ki := 0x00000000#32 })) =
    some { State.reset.arch with
      kp := 0x3C23D70A#32
      kd := 0x3C23D70A#32
      ki := 0x00000000#32
      err := 0xC1200000#32
      perr := 0xC1200000#32
      deriv := 0xC47A0000#32
      integ := 0xBDCCCCCC#32
      tickcnt := 1#32 } := by decide

/-- V-PID-T1b: with INTEG_RESET_ON_SAT the same tick clears INTEG. -/
theorem test_tick_integ_reset : (pidCore { Config.bcpid1 with integResetOnSat := true }
    { State.reset.arch with kp := 0x3C23D70A#32, kd := 0x3C23D70A#32, ki := 0x00000000#32 } 0x00000000#32).integ =
    0x00000000#32 := by decide

/-- S0 with KI = KD = 0 and the registers that V-PID-T4 to V-PID-T7 set. -/
def edgeArch (kp duty e : F32) : Arch :=
  { State.reset.arch with kp := kp, ki := 0#32, kd := 0#32, duty := duty, err := e, perr := e }

/-- V-PID-T4, T5, T5b and T7: one unit outside the band, the half-unit tie, and the edge that is kept. -/
theorem test_tick_band_edges :
    (pidCore Config.bcpid1 (edgeArch 0x33800000#32 0x3F733333#32 0xBF800000#32) 0x41100000#32).duty = 0x3F19999A#32 ∧
    (pidCore Config.bcpid1 (edgeArch 0x33000000#32 0x3F733333#32 0xBF800000#32) 0x41100000#32).duty = 0x3F19999A#32 ∧
    (pidCore Config.bcpid1 (edgeArch 0x32800000#32 0x3F733333#32 0xBF800000#32) 0x41100000#32).duty = 0x3F733333#32 ∧
    (pidCore Config.bcpid1 (edgeArch 0x32000000#32 0x3DCCCCCD#32 0x3F800000#32) 0x41300000#32).duty = 0x3F19999A#32 := by
  decide

/-- V-PID-T8's start, with TICK_INTERVAL = 2.0. -/
def overflowed : Arch :=
  pidCore { Config.bcpid1 with tickInterval := 0x40000000#32 } { State.reset.arch with ki := 0#32, integ := 0x7F7FFFFF#32 }
    0x41200000#32

/-- V-PID-T8 and T9: the NaN candidate is re-centered, and TICKCNT wraps. -/
theorem test_tick_nan_and_wrap :
    (overflowed.integ, overflowed.duty, overflowed.pwm) = (0x7F800000#32, 0x3F19999A#32, 153#16) ∧
    (pidCore Config.bcpid1 { State.reset.arch with tickcnt := 0xFFFFFFFF#32 } 0x41200000#32).tickcnt = 0#32 := by
  decide +kernel

/-- V-SMP: Scale at the table's raw counts. -/
theorem test_scale : [0#16, 1#16, 2#16, 409#16, 410#16, 460#16, 461#16, 511#16, 512#16, 716#16, 717#16, 767#16, 1000#16,
      1022#16, 1023#16].map (scale Config.bcpid1) =
    [0x00000000#32, 0x3CA0280A#32, 0x3D20280A#32, 0x40FFDFF8#32, 0x41004010#32, 0x410FE3F9#32, 0x4110340D#32, 0x411FD7F6#32,
      0x4120280A#32, 0x415FF7FE#32, 0x41604812#32, 0x416FEBFB#32, 0x419C671A#32, 0x419FD7F6#32, 0x41A00000#32] := by decide

/-- V-ACT: PwmValue at the table's fractions. -/
theorem test_pwmValue : [0x00000000#32, 0x3DCCCCCD#32, 0x3DD4D4D5#32, 0x3E99999A#32, 0x3F000000#32, 0x3F333334#32,
      0x3F4CCCCE#32, 0x3F733333#32, 0x3F800000#32].map (pwmValue Config.bcpid1) =
    [some 0, some 26, some 27, some 77, some 128, some 179, some 204, some 242, some 255] := by decide

/-- V-WR-1 to V-WR-7. -/
theorem test_wrTarget : [0x4400000002#39, 0x440000000F#39, 0x4400000001#39, 0x4400000010#39, 0x44FFFFFFFF#39, 0x4480000000#39,
      0x448000000C#39].map (fun w => (archOf (run w (s0 []))).map Arch.target) =
    [some 2#32, some 15#32, some 10#32, some 10#32, some 10#32, some 10#32, some 10#32] := by decide

/-- V-WR-8 to V-WR-17. -/
theorem test_wrKp : [0x483A378034#39, 0x483C23D70A#39, 0x483C23D70B#39, 0x4800000000#39, 0x4880000000#39, 0x4800000001#39,
      0x4880000001#39, 0x487FC00000#39, 0x487F800001#39, 0x487F800000#39].map (fun w => (archOf (run w (s0 []))).map Arch.kp) =
    [some 0x3A378034#32, some 0x3C23D70A#32, some 0x3B03126F#32, some 0x00000000#32, some 0x80000000#32, some 0x00000001#32,
      some 0x3B03126F#32, some 0x3B03126F#32, some 0x3B03126F#32, some 0x3B03126F#32] := by decide

/-- V-WR-18 to V-WR-21. -/
theorem test_wrKi : [0x4C3DCCCCCD#39, 0x4C3DCCCCCE#39, 0x4C3892CCF6#39, 0x4C7FC00000#39].map
      (fun w => (archOf (run w (s0 []))).map Arch.ki) =
    [some 0x3DCCCCCD#32, some 0x3CA3D70A#32, some 0x3892CCF6#32, some 0x3CA3D70A#32] := by decide

/-- V-WR-22 to V-WR-24. -/
theorem test_wrKd : [0x503C23D70A#39, 0x50BF800000#39, 0x50FF800000#39].map
      (fun w => (archOf (run w (s0 []))).map Arch.kd) =
    [some 0x3C23D70A#32, some 0x38D1B717#32, some 0x38D1B717#32] := by decide

/-- V-RD: what the reads return from S0. -/
theorem test_reads_reset : [0x0400000000#39, 0x0800000000#39, 0x0C00000000#39, 0x1000000000#39, 0x28FFFFFFFF#39, 0x2C00000000#39,
      0x3400000000#39, 0x3800000000#39, 0x0000000000#39].map (fun w => dataOf (run w (s0 []))) =
    [some 0x0000000A#32, some 0x3B03126F#32, some 0x3CA3D70A#32, some 0x38D1B717#32, some 0x3F19999A#32, some 0x00000099#32,
      some 0#32, some 0#32, some 0#32] := by decide

/-- A state in which every register holds a value of its own, made up for this file. -/
def distinct : Arch where
  target := 1#32
  kp := 2#32
  ki := 3#32
  kd := 4#32
  meas := 5#32
  err := 6#32
  perr := 7#32
  integ := 8#32
  deriv := 9#32
  duty := 10#32
  pwm := 0xF00B#16
  sampv := 12#32
  adcraw := 0xF00D#16
  tickcnt := 14#32
  tickPend := true

/-- R52's map, offset by offset: each read returns its own register, zero-extended where it has 16 bits. -/
theorem test_reads_map : (List.range 15).map (fun k => dataOf (run (mkTxn false (BitVec.ofNat 6 (4 * k)) 0#32) (s0With [] distinct))) =
    [some 0#32, some 1#32, some 2#32, some 3#32, some 4#32, some 5#32, some 6#32, some 7#32, some 8#32, some 9#32, some 10#32,
      some 0x0000F00B#32, some 12#32, some 0x0000F00D#32, some 14#32] := by decide

/-- V-RSV: the reserved transactions leave the registers as they are. -/
theorem test_reserved_writes : [0x4000000003#39, 0x4000000009#39, 0x400000000F#39, 0x40FFFFFFF0#39, 0x683F800000#39, 0x7800000005#39,
      0x5441200000#39, 0x6C0000FFFF#39, 0x7C00001234#39, 0x45FFFFFFFF#39, 0x460000000C#39].map
      (fun w => archOf (run w (s0With [] distinct))) = List.replicate 11 (some distinct) := by decide

/-- V-RSV: the reserved reads return 0. -/
theorem test_reserved_reads : [0x3C00000000#39, 0x2900000000#39, 0x2E00000000#39].map
      (fun w => dataOf (run w (s0With [] distinct))) = [some 0#32, some 0#32, some 0#32] := by decide

/-! ## One step of the machine -/

/-- An outside that offers one slot. -/
def slotIn (draws : List Half) (sl : Slot) (w : List (Nat × Txn)) (r : Arch) : State :=
  { s0With draws r with inputs := [sl], waiting := w }

/-- V-ARB-1: a strobe starts the TICK. -/
theorem test_step_strobe : archOf (step (slotIn [512#16] ⟨1, [], .low⟩ [] State.reset.arch)) =
    some { State.reset.arch with
      meas := 0x4120280A#32
      err := 0x3C202800#32
      perr := 0x3C202800#32
      deriv := 0x3F7A3E80#32
      integ := 0x38CD0000#32
      duty := 0x3F1991C9#32
      adcraw := 512#16
      tickcnt := 1#32 } := by decide +kernel

/-- V-ARB-4: the pending tick goes before the waiting transaction, which goes on waiting. -/
theorem test_step_tick_first : (match step (slotIn [0#16, 0#16] ⟨1, [], .low⟩ [(1, 0x4000000001#39)] State.reset.arch) with
      | .next t => some (t.arch.tickcnt, t.arch.tickPend, t.waiting, t.served)
      | _ => none) = some (1#32, false, [(1, 0x4000000001#39)], none) := by decide

/-- V-ARB-6: either host may be next. -/
theorem test_step_host_order : (archOf (step { s0 [] with waiting := [(1, 0x440000000C#39), (2, 0x4400000007#39)], orderIn := [0] })).map
      Arch.target = some 12#32 ∧
    (archOf (step { s0 [] with waiting := [(1, 0x440000000C#39), (2, 0x4400000007#39)], orderIn := [1] })).map
      Arch.target = some 7#32 := by decide

/-- V-RST-1 and V-RST-4: reset, with a tick pending and a strobe arriving. -/
theorem test_step_reset : archOf (step (slotIn [] ⟨1, [], .first⟩ [] distinct)) = some State.reset.arch := by decide

/-- V-RST-2 and V-RST-3: reset in the middle of a SAMPLE and of a TICK. -/
theorem test_step_reset_during :
    archOf (step (slotIn [512#16] ⟨0, [(0, 0x4000000002#39)], .during⟩ [] State.reset.arch)) = some State.reset.arch ∧
    archOf (step (slotIn [512#16] ⟨0, [(0, 0x4000000001#39)], .during⟩ [] State.reset.arch)) = some State.reset.arch := by decide

/-- V-RST-5. -/
theorem test_pwm_port : pwmCmp State.reset = 153#16 := by decide

/-- The word that withFetchWord places is the one the next step runs. -/
theorem test_withFetchWord : (match step (State.reset.withFetchWord 40 0x4400000007) with
      | .next t => some (t.arch.target, t.waiting, t.served)
      | _ => none) = some (7#32, [], some 0) := by decide

/-- U11: a parameter set that breaks R4 is refused. -/
theorem test_step_refuses : step { s0 [] with params := { Config.bcpid1 with rawMax := 0#16 } } = .refused .illFormedParameters := by
  unfold step stepWith
  rw [if_neg (by decide)]

/-! ## The host's side -/

/-- P2: TRIM.DEC at 10.0098 V, TRIM.INC at 14.9951 V and at full scale; W3; W4; RMW.TARGET of W8. -/
theorem test_host_sequences :
    trimDecWrite Config.referenceHost Config.bcpid1 0x4120280A#32 2#32 = 0x4400000001#39 ∧
    trimIncWrite Config.referenceHost Config.bcpid1 0x416FEBFB#32 10#32 = 0x440000000B#39 ∧
    trimIncWrite Config.referenceHost Config.bcpid1 0x41A00000#32 11#32 = 0x440000000A#39 ∧
    chanSet Config.referenceHost '2' 3 4 = [0x483A378034#39] ∧ chanSet Config.referenceHost '9' 3 4 = [] ∧
    rmwTarget Config.bcpid1 7#32 (-1) = [0x0400000000#39, 0x4400000006#39] := by decide

/-- R88, R89, R91 with R14's exact arithmetic: beyond int32 the write stores TARGET_DEFAULT even where the band ends there, and
at the other end of the band the neighbour is written. -/
theorem test_host_arithmetic_is_exact :
    let p := { Config.bcpid1 with targetMin := 0x80000000#32, targetMax := 0x7FFFFFFF#32 }
    trimDecWrite Config.referenceHost p 0x4120280A#32 0x80000000#32 = 0x440000000A#39 ∧
    trimIncWrite Config.referenceHost p 0x416FEBFB#32 0x7FFFFFFF#32 = 0x440000000A#39 ∧
    rmwTargetWrite p 0x7FFFFFFF#32 1 = 0x440000000A#39 ∧ rmwTargetWrite p 0x80000000#32 (2 ^ 32 - 1) = 0x447FFFFFFF#39 ∧
    trimDecWrite Config.referenceHost p 0x4120280A#32 0x80000001#32 = 0x4480000000#39 := by decide

/-- V-WR's channel table, n = 5, 13 and 18: the product's rounding. -/
theorem test_channel_values : [(0, 5), (4, 9), (9, 9)].map (fun (e : Fin 10 × Fin 10) =>
      (chanSet Config.referenceHost '4' e.1 e.2, chanSet Config.referenceHost '3' e.1 e.2)) =
    [([0x503A03126E#39], [0x4C3851B717#39]), ([0x503AAA64C3#39], [0x4C3908509C#39]),
      ([0x503AEBEDFA#39], [0x4C393CBE62#39])] := by decide

/-- P4's reads in order. -/
theorem test_snap : snapReads = [0x3800000000#39, 0x1400000000#39, 0x1800000000#39, 0x1C00000000#39, 0x2000000000#39, 0x2400000000#39,
    0x2800000000#39, 0x2C00000000#39, 0x3800000000#39] ∧ snapRepeats 2#32 3#32 = true ∧ snapRepeats 3#32 3#32 = false := by decide

/-! ## Witnesses: for each statement with hypotheses, a state and operands that meet them, clause by clause -/

/-- An instruction's outcome exists: what a hypothesis `exec i s = .next t` asks for. -/
theorem test_next (i : Instr) (s : State) : ∃ t, exec i s = .next t := by
  obtain ⟨t, h, -⟩ := exec_cases i s
  exact ⟨t, h⟩

/-- And a step's. -/
theorem test_next_step (s : State) (h : paramsWellFormed s.params = true) : ∃ t, step s = .next t := by
  obtain ⟨u, -, hs⟩ := step_cases h
  exact ⟨_, hs⟩

theorem test_witness_DecodeInvertsEncode : wellFormed (.rsvCmd4to7 0x7#4 0xFFFFFFF#28) = true ∧
    wellFormed (.rsvRdMisalignedA10 0x3E#6 5#32) = true ∧ wellFormed (.wrKd 0xFFFFFFFF#32) = true := by decide

theorem test_witness_OpcodeRowsDisjointAndTotal : rowSelects (rowOf (.rsvCmd8toF 0x8#4 0#28)) 0x400000000F#39 = true := by decide

theorem test_witness_CommandUpperBitsIgnored : cmdOp 0x00000001#32 = cmdOp 0xFFFFFFF1#32 := by decide

theorem test_witness_ReadsHaveNoSideEffect : (s0 [512#16]).arch = State.reset.arch ∧ (s0 [512#16]).adcIn ≠ State.reset.adcIn := by
  decide

theorem test_witness_SettingReadsReturnSettings : State.reset.params = Config.bcpid1 ∧ safeState State.reset = true := by decide

theorem test_witness_WorkingReadsReturnRegisters : safeState State.reset = true ∧ (s0 [512#16]).params = Config.bcpid1 ∧
    adcResult (s0 [512#16]) = 512#16 ∧ adcResult (s0 [410#16]) = 410#16 ∧ (∃ t, exec (.tick 0#28) (s0 [512#16]) = .next t) ∧
    ∃ t, exec (.sample 0#28) (s0 [410#16]) = .next t :=
  ⟨by decide, by decide, by decide, by decide, test_next _ _, test_next _ _⟩

theorem test_witness_NarrowReadsAreZeroExtended : adcResult (s0 [410#16]) = 410#16 ∧
    ∃ t u v, exec (.tick 0#28) State.reset = .next t ∧ exec (.tick 0#28) t = .next u ∧ exec (.tick 0#28) u = .next v := by
  refine ⟨by decide, ?_⟩
  obtain ⟨t, ht⟩ := test_next (.tick 0#28) State.reset
  obtain ⟨u, hu⟩ := test_next (.tick 0#28) t
  obtain ⟨v, hv⟩ := test_next (.tick 0#28) u
  exact ⟨t, u, v, ht, hu, hv⟩

theorem test_witness_ReservedReadsReturnZero :
    (0x01#6).extractLsb' 0 2 ≠ 0b00#2 ∧ (0x02#6).extractLsb' 0 2 ≠ 0b00#2 ∧ (0x3F#6).extractLsb' 0 2 ≠ 0b00#2 := by decide

theorem test_witness_ReservedWritesChangeNothing : 0x14 ≤ (0x14#6).toNat ∧ (0x14#6).extractLsb' 0 2 = 0b00#2 ∧
    0x14 ≤ (0x3C#6).toNat ∧ (0x3C#6).extractLsb' 0 2 = 0b00#2 ∧ (0x01#6).extractLsb' 0 2 ≠ 0b00#2 ∧
    (0x13#6).extractLsb' 0 2 ≠ 0b00#2 := by decide

theorem test_witness_ReservedCommandsChangeNothing : 0x3#4 ≤ cmdOp 0x3#32 ∧ 0x3#4 ≤ cmdOp 0xFFFFFFFF#32 ∧
    (0x4#4).extractLsb' 0 2 = 0b00#2 ∧ (0x4#4).extractLsb' 2 2 = 0b01#2 ∧ (0x7#4).extractLsb' 2 2 = 0b01#2 ∧
    (0x8#4).getLsbD 3 = true ∧ (0xF#4).getLsbD 3 = true := by decide

theorem test_witness_TargetWriteIsBandOrDefault : paramsWellFormed State.reset.params = true ∧
    (1#32).toInt = State.reset.params.targetMin.toInt - 1 ∧ State.reset.params = Config.bcpid1 ∧ (0x80000000#32).toInt < 0 ∧
    (0xFFFFFFFF#32).toInt < 0 ∧ settingsInBand State.reset.params State.reset.arch = true := by decide

theorem test_witness_GainWritesAreBandOrDefault : f32IsFinite 0xBCA3D70A#32 = true ∧
    gainBandOk 0x00000000#32 0x3B03126F#32 0x3C23D70A#32 = true ∧ f32IsNaN 0x7F800001#32 = true ∧ f32IsInf 0xFF800000#32 = true ∧
    (0x007FFFFF#32).toNat < 0x00800000 ∧ f32Le 0x007FFFFF#32 0x3C23D70A#32 = true ∧ f32Sign 0x3C23D70A#32 = false ∧
    State.reset.params = Config.bcpid1 := by decide

theorem test_witness_SettingWritesAreIdempotent : Instr.wrKi 7#32 ∈ [Instr.wrTarget 7#32, .wrKp 7#32, .wrKi 7#32, .wrKd 7#32] ∧
    ∃ t, exec (.wrKi 7#32) State.reset = .next t := ⟨by decide, test_next _ _⟩

theorem test_witness_SampleWritesSampvAndAdcraw : paramsWellFormed Config.bcpid1 = true ∧
    ∃ t, exec (.sample 0#28) State.reset = .next t := ⟨by decide, test_next _ _⟩

theorem test_witness_ConversionsCoverTheRange : (1023#16).toNat ≤ State.reset.params.rawMax.toNat ∧
    (0#16).toNat ≤ State.reset.params.rawMax.toNat := by decide

theorem test_witness_ScaleIsMonotone : paramsWellFormed Config.bcpid1 = true ∧ (0#16).toNat ≤ (1023#16).toNat ∧
    (1023#16).toNat ≤ Config.bcpid1.rawMax.toNat := by decide

theorem test_witness_AdcrawInfluencesNothing : (∀ d, Instr.tick 0#28 ≠ .rdAdcraw d) ∧ ∀ d, Instr.rdPwm 0#32 ≠ .rdAdcraw d :=
  ⟨fun _ h => (nomatch h), fun _ h => (nomatch h)⟩

/-- S0 with DUTY = x; the candidate is then x less the correction. -/
def withDuty (x : F32) : State := s0With [512#16] { State.reset.arch with duty := x }

theorem test_witness_OutOfBandDutyIsRecentered :
    inband (pidCandidate Config.bcpid1 (withDuty 0x3F19999A#32).arch (scale Config.bcpid1 (adcResult (withDuty 0x3F19999A#32))))
      Config.bcpid1.dutyMin Config.bcpid1.dutyMax = true ∧
    inband (pidCandidate Config.bcpid1 (withDuty 0x3FC00000#32).arch (scale Config.bcpid1 (adcResult (withDuty 0x3FC00000#32))))
      Config.bcpid1.dutyMin Config.bcpid1.dutyMax = false ∧
    f32IsNaN (pidCandidate Config.bcpid1 (withDuty 0x7FC00000#32).arch
      (scale Config.bcpid1 (adcResult (withDuty 0x7FC00000#32)))) = true ∧
    paramsWellFormed Config.bcpid1 = true ∧ inband 0x3F733334#32 Config.bcpid1.dutyMin Config.bcpid1.dutyMax = false := by decide +kernel

theorem test_witness_SaturationAndIntegral :
    ({ withDuty 0x3FC00000#32 with params := { Config.bcpid1 with integResetOnSat := true } }).params.integResetOnSat = true ∧
    inband (pidCandidate Config.bcpid1 (withDuty 0x3FC00000#32).arch (scale Config.bcpid1 (adcResult (withDuty 0x3FC00000#32))))
      Config.bcpid1.dutyMin Config.bcpid1.dutyMax = false ∧
    (withDuty 0x3F19999A#32).params.integResetOnSat = false := by decide +kernel

theorem test_witness_TickEstablishesItsInvariants : paramsWellFormed (s0With [] distinct).params = true ∧
    safeState (s0With [] distinct) = false := by decide

theorem test_witness_PidCoreIsTickWithoutTheSampler : paramsWellFormed Config.bcpid1 = true ∧
    (List.range 1024).all (fun n => scale Config.bcpid1 (BitVec.ofNat 16 n) != 0x41000000#32) = true ∧
    (pidCore Config.bcpid1 State.reset.arch 0x41000000#32).tickcnt = 1#32 := by decide +kernel

theorem test_witness_PwmValueRangeAndMonotone : paramsWellFormed Config.bcpid1 = true ∧
    f32Le 0x00000000#32 0x80000000#32 = true ∧ f32Le 0x80000000#32 0x3F800000#32 = true ∧ f32Le 0x3F800000#32 0x3F800000#32 = true ∧
    pwmValue Config.bcpid1 0x3DCCCCCD#32 = some 26 ∧ pwmValue Config.bcpid1 0x3F800000#32 = some 255 ∧
    safeState State.reset = true := by decide

theorem test_witness_PwmPortFollowsPwm : (match step (slotIn [512#16] ⟨1, [], .low⟩ [] { State.reset.arch with target := 12#32 }) with
      | .next t => decide (pwmCmp t ≠ pwmCmp State.reset)
      | _ => false) = true ∧
    (match step (slotIn [] ⟨0, [], .first⟩ [] distinct) with
      | .next t => decide (pwmCmp t ≠ distinct.pwm)
      | _ => false) = true := by decide +kernel

theorem test_witness_RoundHazIsNearestTiesAway : f32IsFinite 0xC0200000#32 = true ∧
    2 * |f32Int 0xC0200000#32 - (-3) * 2 ^ 149| = 2 ^ 149 := by decide

theorem test_witness_I2fIsExact : |(2 : Int) ^ 24| ≤ 2 ^ 24 ∧ |-(2 : Int) ^ 24| ≤ 2 ^ 24 := by decide

/-- 2^24 + 1.0 is a tie between 2^24 and 2^24 + 2. -/
theorem test_witness_AddAndSubRoundToNearestEven :
    f32IsFinite (f32Add 0x4B800000#32 0x3F800000#32) = true ∧ f32IsFinite 0x4B800001#32 = true ∧
    |f32Int 0x4B800000#32 + f32Int 0x3F800000#32 - f32Int (f32Add 0x4B800000#32 0x3F800000#32)| =
      |f32Int 0x4B800000#32 + f32Int 0x3F800000#32 - f32Int 0x4B800001#32| ∧
    f32Int 0x4B800001#32 ≠ f32Int (f32Add 0x4B800000#32 0x3F800000#32) ∧
    |f32Int 0x4B800000#32 - f32Int 0xBF800000#32 - f32Int (f32Sub 0x4B800000#32 0xBF800000#32)| =
      |f32Int 0x4B800000#32 - f32Int 0xBF800000#32 - f32Int 0x4B800001#32| := by decide

/-- Exact zeros: of two zeros of each sign, of opposite values, and of equal values. -/
theorem test_witness_AddAndSubRoundToNearestEven_zeros :
    [(0x80000000#32, 0x80000000#32), (0x80000000#32, 0x00000000#32), (0x3F800000#32, 0xBF800000#32)].all (fun (e : F32 × F32) =>
      f32IsFinite e.1 && f32IsFinite e.2 && decide (f32Int e.1 + f32Int e.2 = 0)) = true ∧
    f32Int 0x80000000#32 = f32Int 0x00000000#32 ∧ f32Int 0x00000001#32 = f32Int 0x00000001#32 ∧
    f32Sub 0x80000000#32 0x00000000#32 = 0x80000000#32 ∧ f32Sub 0x00000000#32 0x80000000#32 = 0x00000000#32 := by decide

theorem test_witness_MulRoundsToNearestEven : f32IsFinite (f32Mul 0x3F800001#32 0x3FC00000#32) = true ∧
    |f32Int 0x3F800001#32 * f32Int 0x3FC00000#32 - f32Int (f32Mul 0x3F800001#32 0x3FC00000#32) * 2 ^ 149| =
      |f32Int 0x3F800001#32 * f32Int 0x3FC00000#32 - f32Int 0x3FC00001#32 * 2 ^ 149| ∧
    f32Int 0x3FC00001#32 ≠ f32Int (f32Mul 0x3F800001#32 0x3FC00000#32) := by decide

theorem test_witness_DivRoundsToNearestEven : f32IsZero 0x40000000#32 = false ∧
    f32IsFinite (f32Div 0x00000003#32 0x40000000#32) = true ∧
    |f32Int 0x00000003#32 * 2 ^ 149 - f32Int (f32Div 0x00000003#32 0x40000000#32) * f32Int 0x40000000#32| =
      |f32Int 0x00000003#32 * 2 ^ 149 - f32Int 0x00000001#32 * f32Int 0x40000000#32| ∧
    f32Int 0x00000001#32 ≠ f32Int (f32Div 0x00000003#32 0x40000000#32) := by decide

theorem test_witness_OverflowGoesToInfinity : f32IsFinite 0x7F7FFFFF#32 = true ∧ f32IsFinite 0x73000000#32 = true ∧
    (2 ^ 25 - 1) * 2 ^ 252 = |f32Int 0x7F7FFFFF#32 + f32Int 0x73000000#32| ∧
    ¬ (2 ^ 25 - 1) * 2 ^ 252 ≤ |f32Int 0x7F7FFFFF#32 + f32Int 0x72FFFFFF#32| ∧
    (2 ^ 25 - 1) * 2 ^ 252 * 2 ^ 149 ≤ |f32Int 0x7F7FFFFF#32 * f32Int 0xBF800001#32| ∧ f32IsZero 0x3F7FFFFF#32 = false ∧
    (2 ^ 25 - 1) * 2 ^ 252 * |f32Int 0x3F7FFFFF#32| ≤ |f32Int 0x7F7FFFFF#32| * 2 ^ 149 := by decide

theorem test_witness_NanResultsAreCanonical : f32IsNaN (f32Mul 0x7F800000#32 0x80000000#32) = true ∧
    f32IsNaN 0xFFFFFFFF#32 = true ∧ f32IsFinite 0x7F7FFFFF#32 = true ∧ f32IsZero 0x00000001#32 = false ∧
    f32IsInf 0x7F800000#32 = true ∧ f32IsInf 0xFF800000#32 = true ∧ f32IsFinite 0x80000000#32 = true ∧
    f32IsZero 0x80000000#32 = true ∧ f32IsNaN (f32Mul 0xFF800000#32 0x00000001#32) = false ∧
    f32IsNaN (f32Div 0x00000001#32 0xFF800000#32) = false := by decide

/-- R9's infinite operands and R8's zero divisors, at each form. -/
theorem test_infinite_operands : f32Add 0xFF800000#32 0x7F7FFFFF#32 = 0xFF800000#32 ∧
    f32Sub 0x3F800000#32 0x7F800000#32 = 0xFF800000#32 ∧ f32Mul 0xFF800000#32 0x80000001#32 = 0x7F800000#32 ∧
    f32Div 0x3F800000#32 0xFF800000#32 = 0x80000000#32 ∧ f32Div 0xFF800000#32 0x00000000#32 = 0xFF800000#32 ∧
    f32Div 0x7F800000#32 0xFF800000#32 = 0x7FC00000#32 ∧ f32Add 0x7F800000#32 0xFF800000#32 = 0x7FC00000#32 ∧
    f32Mul 0x00000000#32 0xFF800000#32 = 0x7FC00000#32 := by decide

theorem test_witness_ComparisonsFollowTheRule : f32IsNaN 0x7F800001#32 = true ∧ f32IsFinite 0xFF7FFFFF#32 = true ∧
    f32IsFinite 0x80000000#32 = true ∧ f32IsNaN (f32Inf true) = false := by decide

theorem test_witness_ParameterSetsAccepted :
    paramsWellFormed ({ s0 [] with params := { Config.bcpid1 with pwmTop := 0#16 } } : State).params = false := by decide

theorem test_witness_ResetGivesTheListedValues : paramsWellFormed (s0With [] distinct).params = true := by decide

theorem test_witness_ResetOperationIsSafe : paramsWellFormed (s0With [] distinct).params = true := by decide

theorem test_witness_ResetGoesFirst :
    paramsWellFormed (slotIn [] ⟨1, [(0, 0x4000000001#39)], .first⟩ [] distinct).params = true ∧
    (slotOf (slotIn [] ⟨1, [(0, 0x4000000001#39)], .first⟩ [] distinct)).reset = .first := by decide

theorem test_witness_ResetDuringAnOperation :
    paramsWellFormed (slotIn [] ⟨1, [], .during⟩ [] distinct).params = true ∧
    (slotOf (slotIn [] ⟨1, [], .during⟩ [] distinct)).reset = .during := by decide

/-- Host 1 waits with a WR.TARGET and issues a RD.TARGET; nothing else happens. -/
def oneHost : State := slotIn [] ⟨0, [(1, 0x0400000000#39)], .low⟩ [(1, 0x4400000007#39)] State.reset.arch

theorem test_witness_StepRunsTheDecodedTransaction : paramsWellFormed oneHost.params = true ∧ (slotOf oneHost).reset = .low ∧
    oneHost.arch.tickPend = false ∧ (slotOf oneHost).strobes = 0 ∧
    oneHost.waiting ++ (slotOf oneHost).submits = (1, 0x4400000007#39) :: [(1, 0x0400000000#39)] ∧
    (∀ e ∈ [((1 : Nat), 0x0400000000#39)], e.1 = 1) ∧ decode 0x4400000007#39 = .wrTarget 7#32 := by decide

theorem test_witness_PendingTickGoesFirst : paramsWellFormed (slotIn [] ⟨1, [], .low⟩ [] State.reset.arch).params = true ∧
    (slotOf (slotIn [] ⟨1, [], .low⟩ [] State.reset.arch)).reset = .low ∧
    0 < (slotOf (slotIn [] ⟨1, [], .low⟩ [] State.reset.arch)).strobes ∧
    (slotOf (s0With [] distinct)).reset = .low ∧ (s0With [] distinct).arch.tickPend = true := by decide

theorem test_witness_StrobesMerge : (s0With [] distinct).arch.tickPend = true := by decide

theorem test_witness_IdleStepChangesNoRegister : paramsWellFormed State.reset.params = true ∧ (slotOf State.reset).reset = .low ∧
    State.reset.arch.tickPend = false ∧ (slotOf State.reset).strobes = 0 ∧ State.reset.waiting = [] ∧
    (slotOf State.reset).submits = [] := by decide

/-- Hosts 1 and 2 wait, and host 3 issues a transaction. -/
def threeHosts : State :=
  slotIn [] ⟨0, [(3, 0x0400000000#39)], .low⟩ [(1, 0x440000000C#39), (2, 0x4400000007#39), (1, 0x4000000000#39)] State.reset.arch

/-- The second clause's queue, of more than one host, and V-ARB-6's effect: what left the queue is what ran. -/
theorem test_witness_StepRunsTheDecodedTransaction_hosts : paramsWellFormed threeHosts.params = true ∧
    (slotOf threeHosts).reset = .low ∧ threeHosts.arch.tickPend = false ∧ (slotOf threeHosts).strobes = 0 ∧
    threeHosts.waiting ++ (slotOf threeHosts).submits ≠ [] ∧
    (archOf (step { threeHosts with orderIn := [1] })).map Arch.target = some 7#32 := by decide

theorem test_witness_AnyWaitingHostMayBeNext : paramsWellFormed threeHosts.params = true ∧ (slotOf threeHosts).reset = .low ∧
    threeHosts.arch.tickPend = false ∧ (slotOf threeHosts).strobes = 0 ∧
    1 ∈ hostsOf (threeHosts.waiting ++ (slotOf threeHosts).submits) ∧
    3 ∈ hostsOf (threeHosts.waiting ++ (slotOf threeHosts).submits) := by decide

theorem test_witness_HostTargetUpdatesStoreBandOrDefault :
    f32Lt Config.referenceHost.trimLow 0x4120280A#32 = true ∧ f32Lt Config.referenceHost.trimLow 0x40000000#32 = false ∧
    f32Lt 0x416FEBFB#32 Config.referenceHost.trimHigh = true ∧ f32Lt 0x7FC00000#32 Config.referenceHost.trimHigh = false ∧
    Config.bcpid1.targetMin.toInt ≤ (2#32).toInt ∧ ¬ Config.bcpid1.targetMin.toInt ≤ (2#32).toInt - 1 ∧
    ¬ (15#32).toInt + 1 ≤ Config.bcpid1.targetMax.toInt := by decide

theorem test_witness_EachHostKeepsItsOrder : ∃ t, step threeHosts = .next t := test_next_step _ (by decide)

theorem test_witness_StepKeepsSafeStates : safeState oneHost = true ∧ ∃ t, step oneHost = .next t :=
  ⟨by decide, test_next_step _ (by decide)⟩

theorem test_witness_NothingTraps : paramsWellFormed (s0With [] distinct).params = true := by decide

theorem test_witness_RegistersAreWrittenOnlyByTheirInstructions :
    ((archOf (run 0x4400000007#39 (s0 []))).map Arch.target ≠ some State.reset.arch.target) ∧
    ((archOf (run 0x483A378034#39 (s0 []))).map Arch.kp ≠ some State.reset.arch.kp) ∧
    ((archOf (run 0x4C3892CCF6#39 (s0 []))).map Arch.ki ≠ some State.reset.arch.ki) ∧
    ((archOf (run 0x503C23D70A#39 (s0 []))).map Arch.kd ≠ some State.reset.arch.kd) ∧
    ((archOf (run 0x4000000001#39 (s0 [512#16]))).map Arch.meas ≠ some State.reset.arch.meas) ∧
    ((archOf (run 0x4000000002#39 (s0 [512#16]))).map Arch.sampv ≠ some State.reset.arch.sampv) ∧
    ((archOf (run 0x4000000002#39 (s0 [512#16]))).map Arch.adcraw ≠ some State.reset.arch.adcraw) ∧
    (dataOf (run 0x0400000000#39 (s0 [])) ≠ (s0 []).rdata) := by decide

theorem test_witness_TickcntShowsEveryTick : (slotOf (slotIn [] ⟨1, [], .low⟩ [] State.reset.arch)).reset = .low ∧
    (slotOf oneHost).reset = .low ∧ (∃ t, step (slotIn [] ⟨1, [], .low⟩ [] State.reset.arch) = .next t) ∧
    ∃ t, step oneHost = .next t :=
  ⟨by decide, by decide, test_next_step _ (by decide), test_next_step _ (by decide)⟩

theorem test_witness_TargetIsNeverTorn : (archOf (step oneHost)).map Arch.target = some 7#32 ∧ ∃ t, step oneHost = .next t :=
  ⟨by decide, test_next_step _ (by decide)⟩

/-- V-ARB-5: WR KP and then RD KP of one host. -/
def writeThenRead : State := { s0 [] with waiting := [(1, 0x483A378034#39), (1, mkTxn false 0x08#6 0#32)] }

theorem test_witness_ReadSeesThePrecedingTransaction : paramsWellFormed writeThenRead.params = true ∧ writeThenRead.inputs = [] ∧
    writeThenRead.arch.tickPend = false ∧
    writeThenRead.waiting = [(1, 0x483A378034#39), (1, mkTxn false 0x08#6 0#32)] := by decide

theorem test_witness_ChannelSetsAndFallsBack : '9' ≠ '1' ∧ '9' ≠ '2' ∧ '9' ≠ '3' ∧ '9' ≠ '4' ∧
    (s0 []).params = Config.bcpid1 ∧ (9 : Fin 10).val + (6 : Fin 10).val = 15 ∧ (9 : Fin 10).val + (7 : Fin 10).val = 16 := by decide

theorem test_witness_ByteLanesAreLittleEndian : byteLane 0x12345678#32 0 = 0x78#8 ∧ byteLane 0x12345678#32 3 = 0x12#8 ∧ 3 < 4 ∧ 7 < 8 := by
  decide

end Sys2Proof.Tests
end

section
/-! PROOFS. The scope chapter's statements (00_scope.md): binary32 arithmetic and comparisons (R8 to R11), the ADC's
answers (R12) and the accepted parameter sets (R4). The facts about signed magnitudes, rounding and the special operands
come first; each statement is then assembled from them. -/

namespace Sys2Proof.Machine

variable {num den : Nat}

/-! Integers by sign and magnitude -/

/-- The integer of sign s and magnitude n. -/
def signed (s : Bool) (n : Nat) : Int := if s then -(n : Int) else n

@[simp] theorem signed_true (n : Nat) : signed true n = -(n : Int) := rfl

@[simp] theorem signed_false (n : Nat) : signed false n = (n : Int) := rfl

@[simp] theorem signed_zero (s : Bool) : signed s 0 = 0 := by cases s <;> rfl

theorem f32Int_eq_signed (x : F32) : f32Int x = signed (f32Sign x) (f32Units x) := rfl

theorem f32Key_eq_signed (x : F32) : f32Key x = signed (f32Sign x) (f32Mag x) := rfl

theorem abs_signed (s : Bool) (n : Nat) : |signed s n| = n := by cases s <;> simp

theorem signed_natAbs (v : Int) : signed (decide (v < 0)) v.natAbs = v := by
  by_cases h : v < 0 <;> simp only [h, decide_true, decide_false, signed_true, signed_false] <;> omega

theorem natCast_mul_signed (k : Nat) (s : Bool) (n : Nat) : (k : Int) * signed s n = signed s (k * n) := by
  cases s <;> simp

theorem signed_mul_signed (s t : Bool) (m n : Nat) : signed s m * signed t n = signed (s != t) (m * n) := by
  cases s <;> cases t <;> simp

theorem decide_signed_neg {s : Bool} {n : Nat} (h : n ≠ 0) : decide (signed s n < 0) = s := by
  cases s
  · exact decide_eq_false (by rw [signed_false]; omega)
  · exact decide_eq_true (by rw [signed_true]; omega)

/-- Values of one sign are as far apart as their magnitudes. -/
theorem abs_signed_sub_same (s : Bool) (m n : Nat) : |signed s m - signed s n| = |(m : Int) - n| := by
  cases s
  · rfl
  · rw [signed_true, signed_true, neg_sub_neg, abs_sub_comm]

/-- Values of opposite signs are as far apart as the sum of their magnitudes. -/
theorem abs_signed_sub_of_ne {s t : Bool} (h : t ≠ s) (m n : Nat) : |signed s m - signed t n| = (m : Int) + n := by
  have hs : s = !t := by cases s <;> cases t <;> simp_all
  cases t <;> simp only [hs, Bool.not_true, Bool.not_false, signed_true, signed_false]
  · rw [abs_of_nonpos (by omega)]; omega
  · rw [abs_of_nonneg (by omega)]; omega

/-- Values of any signs are at least as far apart as their magnitudes. -/
theorem abs_sub_le_abs_signed_sub (s t : Bool) (m n : Nat) : |(m : Int) - n| ≤ |signed s m - signed t n| := by
  by_cases h : t = s
  · rw [h, abs_signed_sub_same]
  · rw [abs_signed_sub_of_ne h]
    exact abs_sub_le_iff.2 ⟨by omega, by omega⟩

/-- Dividing out the sign of a divisor. -/
theorem abs_signed_sub_mul_signed (s t : Bool) (m n : Nat) (x : Int) :
    |signed s m - x * signed t n| = |signed (s != t) m - n * x| := by
  cases t
  · simp [mul_comm]
  · rw [← abs_neg]
    congr 1
    cases s <;> simp <;> ring

/-- The quotient of u by d, rounded half up: at most half a step away, and above u when it is half a step away. -/
theorem div_half_up_nearest (u : Nat) {d : Nat} (hd : 0 < d) :
    2 * |(u : Int) - (d * ((2 * u + d) / (2 * d)) : Nat)| ≤ d ∧
    (2 * |(u : Int) - (d * ((2 * u + d) / (2 * d)) : Nat)| = d → u < d * ((2 * u + d) / (2 * d))) := by
  have hlo := Nat.mul_div_le (2 * u + d) (2 * d)
  have hhi := Nat.lt_mul_div_succ (2 * u + d) (show 0 < 2 * d by omega)
  rw [Nat.mul_add, mul_assoc] at hhi
  rw [mul_assoc] at hlo
  generalize d * ((2 * u + d) / (2 * d)) = w at *
  rcases abs_cases ((u : Int) - w) with ⟨e, _⟩ | ⟨e, _⟩
  · rw [e]; omega
  · rw [e]; omega

/-! Units and magnitudes -/

theorem oneUnits_pos : 0 < oneUnits := by unfold oneUnits; positivity

theorem oneUnits_cast : (oneUnits : Int) = 2 ^ 149 := by unfold oneUnits; norm_num

theorem unitsOfMag_inj {m m' : Nat} : unitsOfMag m = unitsOfMag m' ↔ m = m' := by
  simp only [le_antisymm_iff, unitsOfMag_le_iff]

theorem unitsOfMag_eq_zero {m : Nat} : unitsOfMag m = 0 ↔ m = 0 :=
  unitsOfMag_inj (m' := 0)

theorem f32IsZero_iff (x : F32) : f32IsZero x = true ↔ f32Mag x = 0 := by simp [f32IsZero]

theorem f32Units_pos {x : F32} (h : f32IsZero x = false) : 0 < f32Units x := by
  refine Nat.pos_of_ne_zero fun h0 => ?_
  rw [(f32IsZero_iff x).2 (unitsOfMag_eq_zero.1 h0)] at h
  cases h

/-! Negation keeps every property of the magnitude and changes the sign of the value. -/

theorem f32Units_neg (x : F32) : f32Units (f32Neg x) = f32Units x := by rw [f32Units, f32Mag_neg, f32Units]

theorem f32Int_neg (x : F32) : f32Int (f32Neg x) = -f32Int x := by
  rw [f32Int_eq_signed, f32Sign_neg, f32Units_neg, f32Int_eq_signed]
  cases f32Sign x <;> simp

@[simp] theorem f32IsNaN_neg (x : F32) : f32IsNaN (f32Neg x) = f32IsNaN x := by rw [f32IsNaN, f32Mag_neg, f32IsNaN]

@[simp] theorem f32IsInf_neg (x : F32) : f32IsInf (f32Neg x) = f32IsInf x := by rw [f32IsInf, f32Mag_neg, f32IsInf]

@[simp] theorem f32IsFinite_neg (x : F32) : f32IsFinite (f32Neg x) = f32IsFinite x := by
  rw [f32IsFinite, f32Mag_neg, f32IsFinite]

/-! Rounding to nearest, ties to even (R8) -/

/-- r is a binary32 nearest to v/den units, and in a tie its pattern is even. -/
def NearestEven (v : Int) (den : Nat) (r : F32) : Prop :=
  ∀ c : F32, |v - den * f32Int r| ≤ |v - den * f32Int c| ∧
    (|v - den * f32Int r| = |v - den * f32Int c| → f32Int c ≠ f32Int r → f32Mag r % 2 = 0)

/-- Below overflow the rounded pattern is the one roundSteps finds. -/
theorem f32Mag_round_of_finite {s : Bool} (hf : f32IsFinite (f32Round s num den) = true) :
    f32Mag (f32Round s num den) = roundSteps num den := by
  rw [f32IsFinite_iff, f32Mag_round] at hf
  rw [f32Mag_round]
  rw [roundMag_eq_min] at hf ⊢
  omega

/-- A finite rounding is nearest, and ties to even also among values of the other sign, which are no nearer than the value
of the same magnitude on the rounded value's side. -/
theorem nearestEven_round (hd : 0 < den) {s : Bool} (hf : f32IsFinite (f32Round s num den) = true) :
    NearestEven (signed s num) den (f32Round s num den) := by
  intro c
  have hm := f32Mag_round_of_finite hf
  have hr : f32Int (f32Round s num den) = signed s (unitsOfMag (roundSteps num den)) := by
    rw [f32Int_eq_signed, f32Sign_round, f32Units, hm]
  have hnear := roundSteps_nearest (num := num) hd (f32Mag c)
  have hfar := abs_sub_le_abs_signed_sub s (f32Sign c) num (den * unitsOfMag (f32Mag c))
  rw [hr, hm, natCast_mul_signed, abs_signed_sub_same, f32Int_eq_signed c, f32Units, natCast_mul_signed]
  rw [← Nat.cast_mul, ← Nat.cast_mul] at hnear
  refine ⟨hnear.trans hfar, fun htie hne => ?_⟩
  by_cases hc : f32Mag c = roundSteps num den
  · rw [hc] at htie hne
    have hs : f32Sign c ≠ s := fun he => hne (by rw [he])
    have h0 := roundSteps_nearest (num := num) hd 0
    have hu : 0 < den * unitsOfMag (roundSteps num den) := Nat.mul_pos hd <| Nat.pos_of_ne_zero fun h => hne (by simp [h])
    rw [← Nat.cast_mul, htie, abs_signed_sub_of_ne hs, unitsOfMag_eq_zero.2 rfl, Nat.cast_zero, mul_zero, sub_zero,
      Nat.abs_cast] at h0
    omega
  · refine roundSteps_tie hd hc ?_
    rw [← Nat.cast_mul, ← Nat.cast_mul]
    rw [← htie] at hfar
    exact le_antisymm hnear hfar

/-! Each operation on finite operands is one rounding of its exact result -/

/-- The sign of a sum: an exact zero is negative only when both addends are. -/
def addSign (a b : F32) : Bool :=
  if f32Int a + f32Int b = 0 then f32Sign a && f32Sign b else decide (f32Int a + f32Int b < 0)

theorem f32Round_zero (s : Bool) (hd : 0 < den) : f32Round s 0 den = f32Zero s := by
  rw [f32Round, roundMag_zero hd, f32Zero]

theorem f32Add_eq_round {a b : F32} (ha : f32IsFinite a = true) (hb : f32IsFinite b = true) :
    f32Add a b = f32Round (addSign a b) (f32Int a + f32Int b).natAbs 1 := by
  rw [f32Add_of_finite ha hb]
  unfold f32AddFinite addSign
  by_cases h : f32Int a + f32Int b = 0
  · simp only [h, if_true, Int.natAbs_zero, f32Round_zero _ Nat.one_pos]
  · simp only [h, if_false]

theorem signed_addSign (a b : F32) : signed (addSign a b) (f32Int a + f32Int b).natAbs = f32Int a + f32Int b := by
  unfold addSign
  by_cases h : f32Int a + f32Int b = 0
  · simp [h]
  · rw [if_neg h, signed_natAbs]

theorem f32Int_mul_f32Int (a b : F32) :
    f32Int a * f32Int b = signed (f32Sign a != f32Sign b) (f32Units a * f32Units b) := by
  rw [f32Int_eq_signed, f32Int_eq_signed, signed_mul_signed]

theorem f32Add_nearestEven {a b : F32} (ha : f32IsFinite a = true) (hb : f32IsFinite b = true)
    (hf : f32IsFinite (f32Add a b) = true) : NearestEven (f32Int a + f32Int b) 1 (f32Add a b) := by
  rw [f32Add_eq_round ha hb] at hf ⊢
  have := nearestEven_round Nat.one_pos hf
  rwa [signed_addSign] at this

theorem f32Mul_nearestEven {a b : F32} (ha : f32IsFinite a = true) (hb : f32IsFinite b = true)
    (hf : f32IsFinite (f32Mul a b) = true) : NearestEven (f32Int a * f32Int b) oneUnits (f32Mul a b) := by
  rw [f32Mul_of_finite ha hb] at hf ⊢
  rw [f32Int_mul_f32Int]
  exact nearestEven_round oneUnits_pos hf

theorem f32Div_nearestEven {a b : F32} (ha : f32IsFinite a = true) (hb : f32IsFinite b = true)
    (h0 : f32IsZero b = false) (hf : f32IsFinite (f32Div a b) = true) :
    NearestEven (signed (f32Sign a != f32Sign b) (f32Units a * oneUnits)) (f32Units b) (f32Div a b) := by
  rw [f32Div_of_finite ha hb h0] at hf ⊢
  exact nearestEven_round (f32Units_pos h0) hf

/-- The remainder of a quotient x, without the divisor's sign. -/
theorem abs_div_remainder (a b : F32) (x : Int) : |f32Int a * 2 ^ 149 - x * f32Int b| =
    |signed (f32Sign a != f32Sign b) (f32Units a * oneUnits) - f32Units b * x| := by
  have ha : f32Int a * 2 ^ 149 = signed (f32Sign a) (f32Units a * oneUnits) := by
    rw [← oneUnits_cast, mul_comm, f32Int_eq_signed, natCast_mul_signed, mul_comm oneUnits]
  rw [ha, f32Int_eq_signed b, abs_signed_sub_mul_signed]

theorem isZero_round_one (s : Bool) (n : Nat) : f32IsZero (f32Round s n 1) = true ↔ n = 0 := by
  rw [f32IsZero_iff, f32Mag_round]
  constructor
  · intro h
    by_contra hn
    have h1 : roundMag 1 1 ≤ roundMag n 1 := roundMag_mono (by decide) (by decide) (by omega)
    rw [h, show roundMag 1 1 = 1 by decide] at h1
    omega
  · rintro rfl
    exact roundMag_zero Nat.one_pos

theorem f32Zero_eq (s : Bool) : f32Zero s = if s then 0x80000000#32 else 0x00000000#32 := by
  cases s <;> rfl

theorem f32Add_isZero {a b : F32} (ha : f32IsFinite a = true) (hb : f32IsFinite b = true) :
    f32IsZero (f32Add a b) = true ↔ f32Int a + f32Int b = 0 := by
  rw [f32Add_eq_round ha hb, isZero_round_one, Int.natAbs_eq_zero]

theorem f32Add_eq_zero {a b : F32} (ha : f32IsFinite a = true) (hb : f32IsFinite b = true)
    (h : f32Int a + f32Int b = 0) : f32Add a b = if f32Sign a && f32Sign b then 0x80000000#32 else 0x00000000#32 := by
  rw [f32Add_eq_round ha hb, h, Int.natAbs_zero, f32Round_zero _ Nat.one_pos, addSign, if_pos h, f32Zero_eq]

/-- A difference is zero when the sum with the negated subtrahend is. -/
theorem f32Int_add_neg_eq_zero (a b : F32) : f32Int a + f32Int (f32Neg b) = 0 ↔ f32Int a = f32Int b := by
  rw [f32Int_neg]
  omega

theorem f32Sub_eq_zero {a b : F32} (ha : f32IsFinite a = true) (hb : f32IsFinite b = true)
    (h : f32Int a = f32Int b) : f32Sub a b = if f32Sign a && !f32Sign b then 0x80000000#32 else 0x00000000#32 := by
  rw [← f32Sign_neg]
  exact f32Add_eq_zero ha (by simpa using hb) ((f32Int_add_neg_eq_zero a b).2 h)

/-! Overflow (R8) -/

/-- The units of the midpoint between the largest finite value and 2^128. -/
def overflowUnits : Nat := (2 ^ 25 - 1) * 2 ^ 252

theorem overflowUnits_pos : 0 < overflowUnits := by unfold overflowUnits; positivity

theorem overflowUnits_cast : (overflowUnits : Int) = (2 ^ 25 - 1) * 2 ^ 252 := by unfold overflowUnits; norm_num

/-- The rounded pattern reaches infinity's from the midpoint on, where the tie goes to the even pattern; below it the
largest finite value is nearer. -/
theorem infMag_le_roundSteps_iff (hd : 0 < den) : infMag ≤ roundSteps num den ↔ overflowUnits * den ≤ num := by
  constructor
  · intro hm
    by_contra hlt
    have hnear := roundSteps_nearest (num := num) hd (infMag - 1)
    have hinf : (2 ^ 25) * 2 ^ 252 ≤ unitsOfMag (roundSteps num den) :=
      le_trans (by decide) (unitsOfMag_le_iff.2 hm)
    have hmax : unitsOfMag (infMag - 1) = (2 ^ 25 - 2) * 2 ^ 252 := by decide
    unfold overflowUnits at hlt
    rw [hmax] at hnear
    generalize unitsOfMag (roundSteps num den) = u at hinf hnear
    generalize 2 ^ 252 = t at hinf hnear hlt
    have hu : den * (2 ^ 25 * t) ≤ den * u := Nat.mul_le_mul_left _ hinf
    have e1 : den * (2 ^ 25 * t) = 2 ^ 25 * (den * t) := by ring
    have e2 : (2 ^ 25 - 1) * t * den = (2 ^ 25 - 1) * (den * t) := by ring
    have e3 : den * ((2 ^ 25 - 2) * t) = (2 ^ 25 - 2) * (den * t) := by ring
    rw [← Nat.cast_mul, ← Nat.cast_mul, e3] at hnear
    rw [e1] at hu
    rw [e2] at hlt
    generalize den * t = d at *
    generalize den * u = w at *
    rw [abs_of_nonpos (by omega), le_abs] at hnear
    omega
  · intro h
    have := roundSteps_mono (a := overflowUnits) (b := 1) (c := num) Nat.one_pos hd (by omega)
    rwa [show roundSteps overflowUnits 1 = infMag by decide] at this

/-- Rounding gives the infinity of its sign from the midpoint on, a condition c, and a finite value below it. -/
theorem f32Round_overflow {c : Prop} [Decidable c] {s t : Bool} (hd : 0 < den) (hc : c ↔ overflowUnits * den ≤ num)
    (hs : num ≠ 0 → s = t) :
    if c then f32Round s num den = f32Inf t else f32IsFinite (f32Round s num den) = true := by
  have h := infMag_le_roundSteps_iff (num := num) hd
  split
  next hle =>
    have hnum : num ≠ 0 := by
      have := Nat.mul_pos overflowUnits_pos hd
      have := hc.1 hle
      omega
    rw [f32Round, roundMag_eq_min, min_eq_right (h.2 (hc.1 hle)), f32Inf, hs hnum]
  next hlt =>
    rw [f32IsFinite_iff, f32Mag_round, roundMag_eq_min]
    exact lt_of_le_of_lt (min_le_left _ _) (not_le.1 fun hge => hlt (hc.2 (h.1 hge)))

/-- The midpoint's condition on integers. -/
theorem overflow_le_iff (n d : Nat) : (2 ^ 25 - 1) * 2 ^ 252 * (d : Int) ≤ n ↔ overflowUnits * d ≤ n := by
  rw [← overflowUnits_cast]
  norm_cast

/-! Special operands (R9) -/

theorem f32IsInf_iff (x : F32) : f32IsInf x = true ↔ f32Mag x = infMag := by simp [f32IsInf]

theorem f32Inf_sign {x : F32} (h : f32IsInf x = true) : f32Inf (f32Sign x) = x := by
  rw [f32Inf, ← (f32IsInf_iff x).1 h, pack_sign_mag]

theorem not_nan_of_inf {x : F32} (h : f32IsInf x = true) : f32IsNaN x = false := by
  simp [f32IsNaN, (f32IsInf_iff x).1 h]

theorem not_zero_of_inf {x : F32} (h : f32IsInf x = true) : f32IsZero x = false := by
  rw [f32IsZero, (f32IsInf_iff x).1 h]
  decide

theorem finite_of_zero {x : F32} (h : f32IsZero x = true) : f32IsFinite x = true := by
  rw [f32IsZero_iff] at h
  rw [f32IsFinite_iff, h]
  decide

theorem not_nan_round (s : Bool) (num den : Nat) : f32IsNaN (f32Round s num den) = false := by
  have := roundMag_le_inf num den
  simp only [f32IsNaN, f32Mag_round, decide_eq_false_iff_not]
  omega

theorem f32Add_not_nan {a b : F32} (ha : f32IsFinite a = true) (hb : f32IsFinite b = true) :
    f32IsNaN (f32Add a b) = false := by
  rw [f32Add_eq_round ha hb, not_nan_round]

theorem f32Sign_inf (s : Bool) : f32Sign (f32Inf s) = s := f32Sign_pack infMag_lt

theorem CanonicalResult.eq_of_isNaN {x : F32} (hx : CanonicalResult x) (h : f32IsNaN x = true) : x = canonicalNaN := by
  refine hx.resolve_right fun hle => ?_
  simp only [f32IsNaN, decide_eq_true_eq] at h
  omega

theorem f32Add_nan {a b : F32} (h : f32IsNaN a = true ∨ f32IsNaN b = true) : f32Add a b = canonicalNaN :=
  if_pos (by simpa using h)

theorem f32Sub_nan {a b : F32} (h : f32IsNaN a = true ∨ f32IsNaN b = true) : f32Sub a b = canonicalNaN :=
  f32Add_nan (by simpa using h)

theorem f32Mul_nan {a b : F32} (h : f32IsNaN a = true ∨ f32IsNaN b = true) : f32Mul a b = canonicalNaN :=
  if_pos (by simpa using h)

theorem f32Div_nan {a b : F32} (h : f32IsNaN a = true ∨ f32IsNaN b = true) : f32Div a b = canonicalNaN :=
  if_pos (by simpa using h)

theorem f32Add_inf_left {a b : F32} (ha : f32IsInf a = true) (hb : f32IsFinite b = true) : f32Add a b = a := by
  simp [f32Add, not_nan_of_inf ha, not_nan_of_finite hb, ha, not_inf_of_finite hb, f32Inf_sign ha]

theorem f32Add_inf_right {a b : F32} (ha : f32IsFinite a = true) (hb : f32IsInf b = true) : f32Add a b = b := by
  simp [f32Add, not_nan_of_inf hb, not_nan_of_finite ha, hb, not_inf_of_finite ha, f32Inf_sign hb]

theorem f32Add_inf_inf {a b : F32} (ha : f32IsInf a = true) (hb : f32IsInf b = true) :
    f32Add a b = if f32Sign a = f32Sign b then a else canonicalNaN := by
  by_cases h : f32Sign a = f32Sign b
  · have hba : f32Inf (f32Sign b) = a := h ▸ f32Inf_sign ha
    simp [f32Add, not_nan_of_inf ha, not_nan_of_inf hb, ha, hb, h, hba]
  · simp [f32Add, not_nan_of_inf ha, not_nan_of_inf hb, ha, hb, h]

theorem f32Mul_inf_left {a b : F32} (ha : f32IsInf a = true) (hb : f32IsNaN b = false) :
    f32Mul a b = if f32IsZero b then canonicalNaN else f32Inf (f32Sign a != f32Sign b) := by
  simp [f32Mul, not_nan_of_inf ha, hb, ha, not_zero_of_inf ha]

theorem f32Mul_comm (a b : F32) : f32Mul a b = f32Mul b a := by
  unfold f32Mul
  rw [bne_comm, Bool.or_comm (f32IsNaN a), Bool.or_comm (f32IsInf a), Bool.or_comm (f32IsZero a), mul_comm (f32Units a)]

theorem f32Div_inf_left {a b : F32} (ha : f32IsInf a = true) (hb : f32IsFinite b = true) :
    f32Div a b = f32Inf (f32Sign a != f32Sign b) := by
  simp [f32Div, not_nan_of_inf ha, not_nan_of_finite hb, ha, not_inf_of_finite hb]

theorem f32Div_inf_right {a b : F32} (ha : f32IsFinite a = true) (hb : f32IsInf b = true) :
    f32Div a b = f32Zero (f32Sign a != f32Sign b) := by
  simp [f32Div, not_nan_of_inf hb, not_nan_of_finite ha, hb, not_inf_of_finite ha]

theorem f32Div_inf_inf {a b : F32} (ha : f32IsInf a = true) (hb : f32IsInf b = true) : f32Div a b = canonicalNaN := by
  simp [f32Div, not_nan_of_inf ha, not_nan_of_inf hb, ha, hb]

theorem f32Div_zero {a b : F32} (ha : f32IsFinite a = true) (hb : f32IsZero b = true) :
    f32Div a b = if f32IsZero a then canonicalNaN else f32Inf (f32Sign a != f32Sign b) := by
  simp [f32Div, not_nan_of_finite ha, not_nan_of_finite (finite_of_zero hb), not_inf_of_finite ha,
    not_inf_of_finite (finite_of_zero hb), hb]

/-- A result with sign s, unless it is the canonical NaN. -/
def SignedResult (s : Bool) (r : F32) : Prop := r = canonicalNaN ∨ ∃ m ≤ infMag, r = f32Pack s m

theorem f32Mul_signedResult (a b : F32) : SignedResult (f32Sign a != f32Sign b) (f32Mul a b) := by
  unfold f32Mul
  dsimp only
  split_ifs
  · exact .inl rfl
  · exact .inl rfl
  · exact .inr ⟨infMag, le_refl _, rfl⟩
  · exact .inr ⟨_, roundMag_le_inf _ _, rfl⟩

theorem f32Div_signedResult (a b : F32) : SignedResult (f32Sign a != f32Sign b) (f32Div a b) := by
  unfold f32Div
  dsimp only
  split_ifs
  · exact .inl rfl
  · exact .inl rfl
  · exact .inr ⟨infMag, le_refl _, rfl⟩
  · exact .inr ⟨0, Nat.zero_le _, rfl⟩
  · exact .inl rfl
  · exact .inr ⟨infMag, le_refl _, rfl⟩
  · exact .inr ⟨_, roundMag_le_inf _ _, rfl⟩

theorem SignedResult.sign_eq {s : Bool} {r : F32} (h : SignedResult s r) (hn : f32IsNaN r = false) : f32Sign r = s := by
  obtain rfl | ⟨m, hm, rfl⟩ := h
  · cases hn
  · exact f32Sign_pack (lt_of_le_of_lt hm infMag_lt)

/-! The order of the values (R10) -/

/-- The order of the patterns' keys is the order of the exact values. -/
theorem f32Key_le_iff (a b : F32) : f32Key a ≤ f32Key b ↔ f32Int a ≤ f32Int b := by
  have hle := unitsOfMag_le_iff (m := f32Mag a) (m' := f32Mag b)
  have hge := unitsOfMag_le_iff (m := f32Mag b) (m' := f32Mag a)
  have ha := unitsOfMag_eq_zero (m := f32Mag a)
  have hb := unitsOfMag_eq_zero (m := f32Mag b)
  rw [f32Key_eq_signed, f32Key_eq_signed, f32Int_eq_signed, f32Int_eq_signed, f32Units, f32Units]
  cases f32Sign a <;> cases f32Sign b <;> simp only [signed_true, signed_false] <;> omega

theorem f32Key_inf (s : Bool) : f32Key (f32Inf s) = signed s infMag := by
  rw [f32Key_eq_signed, f32Sign_inf, f32Inf, f32Mag_pack infMag_lt]

theorem not_nan_inf (s : Bool) : f32IsNaN (f32Inf s) = false := by cases s <;> decide

theorem abs_f32Key (x : F32) : |f32Key x| = f32Mag x := by rw [f32Key_eq_signed, abs_signed]

/-- No NaN lies outside the infinities. -/
theorem f32Key_bounds {x : F32} (h : f32IsNaN x = false) : -(infMag : Int) ≤ f32Key x ∧ f32Key x ≤ infMag := by
  simp only [f32IsNaN, decide_eq_false_iff_not] at h
  rw [← abs_le, abs_f32Key]
  omega

/-- The finite values lie strictly between the infinities. -/
theorem f32Key_bounds_of_finite {x : F32} (h : f32IsFinite x = true) :
    -(infMag : Int) < f32Key x ∧ f32Key x < infMag := by
  rw [f32IsFinite_iff] at h
  rw [← abs_lt, abs_f32Key]
  omega

/-! The accepted sets (R4), one band at a time -/

theorem inbandInt_iff (v lo hi : Word) : inbandInt v lo hi = true ↔ lo.toInt ≤ v.toInt ∧ v.toInt ≤ hi.toInt := by
  simp [inbandInt]

theorem inband_iff (v lo hi : F32) : inband v lo hi = true ↔ f32Le lo v = true ∧ f32Le v hi = true := by
  simp [inband]

theorem gainBandOk_iff (lo dflt hi : F32) : gainBandOk lo dflt hi = true ↔
    f32Le lo dflt = true ∧ f32Le dflt hi = true ∧
    f32IsFinite lo = true ∧ f32IsFinite dflt = true ∧ f32IsFinite hi = true := by
  simp only [gainBandOk, Bool.and_eq_true]
  tauto

theorem dutyBandOk_iff (p : Params) : dutyBandOk p = true ↔
    f32Le p.dutyMin p.dutyReset = true ∧ f32Le p.dutyReset p.dutyMax = true ∧
    f32Le p.dutyMin p.dutyInit = true ∧ f32Le p.dutyInit p.dutyMax = true ∧
    (∀ d ∈ [p.dutyMin, p.dutyMax, p.dutyReset, p.dutyInit], f32IsFinite d = true) ∧
    f32Le 0x00000000#32 p.dutyMin = true ∧ f32Le p.dutyMax 0x3F800000#32 = true := by
  simp only [dutyBandOk, Bool.and_eq_true, inband_iff, List.forall_mem_cons, List.not_mem_nil, false_implies, implies_true]
  tauto

theorem f32Positive_iff (x : F32) : f32Positive x = true ↔ f32IsFinite x = true ∧ f32Lt 0x00000000#32 x = true := by
  simp [f32Positive]

/-! The ADC's answers (R12) -/

theorem toNat_rawInRange (rawMax x : Half) : (rawInRange rawMax x).toNat = x.toNat % (rawMax.toNat + 1) := by
  have h1 := Nat.mod_lt x.toNat (Nat.succ_pos rawMax.toNat)
  rw [rawInRange, BitVec.toNat_ofNat, Nat.mod_eq_of_lt]
  exact lt_of_lt_of_le h1 rawMax.isLt

/-! The statements -/

/-- Settles O32: the quotient by twice 1.0 of the doubled units and 1.0 is the nearest integer, up in a tie. -/
theorem roundHazIsNearestTiesAway : Obligations.RoundHazIsNearestTiesAway := by
  intro x hx
  refine ⟨signed (f32Sign x) ((2 * f32Units x + oneUnits) / (2 * oneUnits)), by rw [roundHaz, if_pos hx]; rfl, ?_⟩
  obtain ⟨hle, htie⟩ := div_half_up_nearest (f32Units x) oneUnits_pos
  rw [← oneUnits_cast, mul_comm _ (oneUnits : Int), natCast_mul_signed, f32Int_eq_signed, abs_signed_sub_same, abs_signed,
    abs_signed, mul_comm _ (oneUnits : Int)]
  exact ⟨hle, fun h => by exact_mod_cast htie h⟩

/-- Settles O33: a magnitude up to 2^24 is kept exactly, with its sign. -/
theorem i2fIsExact : Obligations.I2fIsExact := by
  intro n hn
  obtain ⟨hm, hu, hs⟩ := i2f_exact (n := n) (by rw [Int.abs_eq_natAbs] at hn; omega)
  refine ⟨(f32IsFinite_iff _).2 hm, ?_⟩
  rw [f32Int_eq_signed, hu, hs, mul_comm, ← natCast_mul_signed, signed_natAbs, oneUnits_cast, mul_comm]

/-- Settles O34: a sum is one rounding of the exact sum, and a difference is the sum with the negated subtrahend. -/
theorem addAndSubRoundToNearestEven : Obligations.AddAndSubRoundToNearestEven := by
  refine ⟨fun a b c ha hb _ hf => ?_, fun a b c ha hb _ hf => ?_, fun a b ha hb => ⟨f32Add_isZero ha hb, ?_,
    f32Add_eq_zero ha hb, f32Sub_eq_zero ha hb⟩, fun x hx => ?_⟩
  · simpa using f32Add_nearestEven ha hb hf c
  · have h := f32Add_nearestEven ha (b := f32Neg b) (by simpa using hb) hf c
    rw [f32Int_neg, ← sub_eq_add_neg, ← f32Sub] at h
    simpa using h
  · rw [← f32Int_add_neg_eq_zero]
    exact f32Add_isZero ha (by simpa using hb)
  · rw [f32Sub_eq_zero hx hx rfl, Bool.and_not_self]
    rfl

/-- Settles O35: a product is one rounding of the exact product. -/
theorem mulRoundsToNearestEven : Obligations.MulRoundsToNearestEven := by
  intro a b c ha hb _ hf
  simpa only [oneUnits_cast, mul_comm ((2 : Int) ^ 149)] using f32Mul_nearestEven ha hb hf c

/-- Settles O36: a quotient is one rounding of the exact quotient, with the divisor's sign moved to the dividend. -/
theorem divRoundsToNearestEven : Obligations.DivRoundsToNearestEven := by
  intro a b c ha hb h0 _ hf
  simpa only [abs_div_remainder] using f32Div_nearestEven ha hb h0 hf c

/-- Settles O37: each operation is one rounding, which overflows exactly when the exact magnitude reaches the midpoint. -/
theorem overflowGoesToInfinity : Obligations.OverflowGoesToInfinity := by
  refine ⟨fun a b ha hb => ?_, fun a b ha hb => ?_, fun a b ha hb h0 => ?_⟩
  · rw [f32Add_eq_round ha hb]
    refine f32Round_overflow Nat.one_pos ?_ fun h => if_neg (Int.natAbs_ne_zero.1 h)
    rw [Int.abs_eq_natAbs, ← overflow_le_iff, Nat.cast_one, mul_one]
  · rw [f32Mul_of_finite ha hb, f32Int_mul_f32Int]
    refine f32Round_overflow oneUnits_pos ?_ fun h => (decide_signed_neg h).symm
    rw [abs_signed, ← oneUnits_cast, overflow_le_iff]
  · rw [f32Div_of_finite ha hb h0]
    refine f32Round_overflow (f32Units_pos h0) ?_ fun _ => rfl
    rw [f32Int_eq_signed a, f32Int_eq_signed b, abs_signed, abs_signed, ← oneUnits_cast, ← Nat.cast_mul,
      overflow_le_iff]

/-- Settles O38: the operands' classes, one lemma for each operation and class. -/
theorem nanResultsAreCanonical : Obligations.NanResultsAreCanonical := by
  refine ⟨fun a b => ?_, fun a b ha hb => ⟨f32Add_not_nan ha hb, ?_, ?_, fun h0 => ?_⟩, fun a b ha hb => ?_,
    fun a b ha hb => ⟨f32Add_inf_inf ha hb, ?_, ?_, f32Div_inf_inf ha hb⟩, fun a b => f32Div_zero,
    fun a b => ⟨(f32Mul_signedResult a b).sign_eq, (f32Div_signedResult a b).sign_eq⟩⟩
  · simp only [List.forall_mem_cons, List.not_mem_nil, false_implies, implies_true, and_true]
    exact ⟨⟨(f32Add_canonical a b).eq_of_isNaN, f32Add_nan⟩,
      ⟨(f32Add_canonical a (f32Neg b)).eq_of_isNaN, f32Sub_nan⟩,
      ⟨(f32Mul_canonical a b).eq_of_isNaN, f32Mul_nan⟩, ⟨(f32Div_canonical a b).eq_of_isNaN, f32Div_nan⟩⟩
  · exact f32Add_not_nan ha (by simpa using hb)
  · rw [f32Mul_of_finite ha hb, not_nan_round]
  · rw [f32Div_of_finite ha hb h0, not_nan_round]
  · have hn := not_nan_of_finite hb
    refine ⟨f32Add_inf_left ha hb, f32Add_inf_right hb ha, f32Add_inf_left ha (by simpa using hb), ?_,
      f32Mul_inf_left ha hn, f32Mul_comm b a ▸ f32Mul_inf_left ha hn, f32Div_inf_left ha hb, ?_⟩
    · have ha' : f32IsInf (f32Neg a) = true := by simpa using ha
      rw [f32Sub, f32Add_inf_right hb ha', ← f32Sign_neg, f32Inf_sign ha']
    · rw [f32Div_inf_right hb ha, f32Zero_eq, bne_comm]
  · rw [f32Sub, f32Add_inf_inf ha (by simpa using hb), f32Sign_neg]
    cases f32Sign a <;> cases f32Sign b <;> rfl
  · rw [f32Mul_inf_left ha (not_nan_of_inf hb), not_zero_of_inf hb]
    rfl

/-- Settles O39: the order of the keys is the order of the values on finite operands, and the infinities' keys are its
ends. -/
theorem comparisonsFollowTheRule : Obligations.ComparisonsFollowTheRule := by
  refine ⟨fun a b h => ?_, by decide, by decide, fun a b ha hb => ?_, fun a hn => ?_, fun a ha => ?_,
    fun v lo hi => ⟨inband_iff v lo hi, fun hn => ?_⟩, inbandInt_iff⟩
  · obtain h | h := h <;> simp [f32Le, h]
  · rw [f32Le_iff, f32Key_le_iff]
    simp [not_nan_of_finite ha, not_nan_of_finite hb]
  · obtain ⟨hlo, hhi⟩ := f32Key_bounds hn
    simp only [f32Le_iff, hn, not_nan_inf, f32Key_inf, signed_true, signed_false, true_and]
    exact ⟨hlo, hhi⟩
  · obtain ⟨hlo, hhi⟩ := f32Key_bounds_of_finite ha
    simp only [← Bool.not_eq_true, f32Le_iff, f32Key_inf, signed_true, signed_false]
    omega
  · simp [inband, f32Le, hn]

/-- Settles O18: every answer is taken modulo RAW_MAX + 1, which leaves the answers of the range as they are. -/
theorem conversionsCoverTheRange : Obligations.ConversionsCoverTheRange := by
  constructor
  · intro s
    rw [adcResult, toNat_rawInRange]
    exact Nat.le_of_lt_succ (Nat.mod_lt _ (Nat.succ_pos _))
  · intro s r hr
    refine BitVec.eq_of_toNat_eq ?_
    rw [adcResult, toNat_rawInRange]
    exact Nat.mod_eq_of_lt (Nat.lt_succ_of_le hr)

/-- Settles O40: each band's check is its conditions of R4, and the 16-bit PWM_TOP is never above 65535. -/
theorem parameterSetsAccepted : Obligations.ParameterSetsAccepted := by
  refine ⟨fun p => ?_, by decide, fun s hs => ?_⟩
  · have htop : p.pwmTop.toNat ≤ 65535 := Nat.le_of_lt_succ p.pwmTop.isLt
    simp only [paramsWellFormed, targetBandOk, inbandInt_iff, gainBandOk_iff, dutyBandOk_iff, f32Positive_iff,
      Bool.and_eq_true, decide_eq_true_eq, List.forall_mem_cons, List.not_mem_nil, false_implies, implies_true, htop]
    tauto
  · rw [step, stepWith, hs]
    rfl

end Sys2Proof.Machine
end

section
/-! PROOFS. The state chapter's statements (10_state.md): which instruction writes each register (R21 to R35), what TICK
establishes from every state, and the invariants every step keeps (R26, R32, R35, R36). First what PidCore writes and
leaves, PwmValue on [0, 1] and the bands of an accepted parameter set; then the invariants in two groups, which the writes
of the settings and TICK keep separately; then each operation and each stage of a step. -/

namespace Sys2Proof.Machine

/-! What PidCore leaves unchanged, and the registers of the invariants that it writes (R120, R135) -/

section
variable (p : Params) (r : Arch) (m : F32)

@[simp] theorem pidCore_target : (pidCore p r m).target = r.target := (rfl)

@[simp] theorem pidCore_kp : (pidCore p r m).kp = r.kp := (rfl)

@[simp] theorem pidCore_ki : (pidCore p r m).ki = r.ki := (rfl)

@[simp] theorem pidCore_kd : (pidCore p r m).kd = r.kd := (rfl)

@[simp] theorem pidCore_sampv : (pidCore p r m).sampv = r.sampv := (rfl)

@[simp] theorem pidCore_adcraw : (pidCore p r m).adcraw = r.adcraw := (rfl)

@[simp] theorem pidCore_tickPend : (pidCore p r m).tickPend = r.tickPend := (rfl)

theorem pidCore_duty : (pidCore p r m).duty = recenter p (pidCandidate p r m) := (rfl)

theorem pidCore_pwm : (pidCore p r m).pwm = pwmField p (pidCore p r m).duty := (rfl)

theorem pidCore_err_eq_perr : (pidCore p r m).err = (pidCore p r m).perr := (rfl)

end

/-! PwmValue on [0, 1] (R150, R151) -/

/-- A value in [0, 1] has at most 1.0's magnitude, and the only negative one is -0.0. -/
theorem mag_le_one_of_unit_interval {f : F32} (h0 : f32Le 0x00000000#32 f = true) (h1 : f32Le f 0x3F800000#32 = true) :
    f32Mag f ≤ 0x3F800000 ∧ (f32Sign f = true → f32Mag f = 0) := by
  have k0 : f32Key 0x00000000#32 = 0 := by decide
  have k1 : f32Key 0x3F800000#32 = 0x3F800000 := by decide
  obtain ⟨-, -, hlo⟩ := (f32Le_iff _ _).1 h0
  obtain ⟨-, -, hhi⟩ := (f32Le_iff _ _).1 h1
  rw [k0, f32Key_eq_signed] at hlo
  rw [k1, f32Key_eq_signed] at hhi
  cases hs : f32Sign f
  · rw [hs, signed_false] at hhi
    exact ⟨by omega, fun h => nomatch h⟩
  · rw [hs, signed_true] at hlo
    exact ⟨by omega, fun _ => by omega⟩

/-- A product with a factor of magnitude at most 1.0 is no larger than the other factor (R8: rounding is monotonic). -/
theorem f32Mag_mul_le {f c : F32} (hf : f32Mag f ≤ 0x3F800000) (hc : f32IsFinite c = true) :
    f32Mag (f32Mul f c) ≤ f32Mag c := by
  have hff : f32IsFinite f = true := (f32IsFinite_iff f).2 (lt_of_le_of_lt hf (by decide))
  have hu : f32Units f ≤ oneUnits := le_trans (unitsOfMag_le_iff.2 hf) (by decide)
  have hexact : roundMag (f32Units c * oneUnits) oneUnits = f32Mag c :=
    roundMag_exact (le_of_lt ((f32IsFinite_iff c).1 hc)) oneUnits_pos
  rw [f32Mul_of_finite hff hc, f32Mag_round, ← hexact]
  refine roundMag_mono oneUnits_pos oneUnits_pos (Nat.mul_le_mul_right _ ?_)
  rw [mul_comm (f32Units f)]
  exact Nat.mul_le_mul_left _ hu

/-- A zero factor makes the product a zero. -/
theorem f32Mag_mul_of_zero {f c : F32} (hf : f32Mag f = 0) (hc : f32IsFinite c = true) : f32Mag (f32Mul f c) = 0 := by
  have hff : f32IsFinite f = true := finite_of_zero ((f32IsZero_iff f).2 hf)
  rw [f32Mul_of_finite hff hc, f32Mag_round, f32Units, unitsOfMag_eq_zero.2 hf, Nat.zero_mul, roundMag_zero oneUnits_pos]

/-- round_haz of a finite value, by sign and magnitude (R11). -/
theorem roundHaz_of_finite {x : F32} (hx : f32IsFinite x = true) :
    roundHaz x = some (signed (f32Sign x) ((2 * f32Units x + oneUnits) / (2 * oneUnits))) := by
  rw [roundHaz, if_pos hx]
  rfl

/-- A value of at most n rounds to at most n. -/
theorem roundHaz_le {u n : Nat} (h : u ≤ n * oneUnits) : (2 * u + oneUnits) / (2 * oneUnits) ≤ n := by
  have hpos := oneUnits_pos
  have hnext : n.succ * (2 * oneUnits) = 2 * (n * oneUnits) + 2 * oneUnits := by rw [Nat.succ_eq_add_one]; ring
  refine Nat.le_of_lt_succ ((Nat.div_lt_iff_lt_mul (by omega)).2 ?_)
  omega

/-- A PwmValue that fits 16 bits is what the PWM field holds. -/
theorem pwmField_of_pwmValue {p : Params} {f : F32} {v : Nat} (h : pwmValue p f = some (v : Int)) (hv : v < 65536) :
    (pwmField p f).toNat = v := by
  have hfit : 0 ≤ (v : Int) ∧ (v : Int) < 65536 := by omega
  simp only [pwmField, h, if_pos hfit, BitVec.ofInt_natCast, BitVec.toNat_ofNat]
  omega

/-- For a duty in [0, 1] PwmValue is an integer in [0, PWM_TOP], and the PWM field holds it (R151). -/
theorem pwmValue_of_unit_interval (p : Params) {f : F32} (h0 : f32Le 0x00000000#32 f = true)
    (h1 : f32Le f 0x3F800000#32 = true) :
    ∃ v : Nat, pwmValue p f = some (v : Int) ∧ v ≤ p.pwmTop.toNat ∧ (pwmField p f).toNat = v := by
  have htop : p.pwmTop.toNat < 65536 := p.pwmTop.isLt
  obtain ⟨hmag, hneg⟩ := mag_le_one_of_unit_interval h0 h1
  obtain ⟨hcm, hcu, hcs⟩ := i2f_exact (n := (p.pwmTop.toNat : Int)) (by omega)
  rw [decide_eq_false (by omega)] at hcs
  have hc : f32IsFinite (i2f p.pwmTop.toNat) = true := (f32IsFinite_iff _).2 hcm
  have hle := f32Mag_mul_le hmag hc
  have hfin : f32IsFinite (pwmProduct p f) = true := (f32IsFinite_iff _).2 (lt_of_le_of_lt hle hcm)
  have hunits : f32Units (pwmProduct p f) ≤ p.pwmTop.toNat * oneUnits := by
    rw [Int.natAbs_natCast] at hcu
    exact le_of_le_of_eq (unitsOfMag_le_iff.2 hle) hcu
  have hval : pwmValue p f =
      some (((2 * f32Units (pwmProduct p f) + oneUnits) / (2 * oneUnits) : Nat) : Int) := by
    rw [pwmValue, roundHaz_of_finite hfin]
    cases hs : f32Sign (pwmProduct p f)
    · rfl
    · have hfs : f32Sign f = true := by
        have hprod := (f32Mul_signedResult f (i2f p.pwmTop.toNat)).sign_eq (not_nan_of_finite hfin)
        rw [← pwmProduct, hs, hcs] at hprod
        simpa using hprod.symm
      have hz : f32Units (pwmProduct p f) = 0 := unitsOfMag_eq_zero.2 (f32Mag_mul_of_zero (hneg hfs) hc)
      have hround := roundHaz_le (n := 0) (le_of_eq (hz.trans (Nat.zero_mul _).symm))
      rw [Nat.le_zero.1 hround]
      rfl
  exact ⟨_, hval, roundHaz_le hunits, pwmField_of_pwmValue hval (lt_of_le_of_lt (roundHaz_le hunits) htop)⟩

/-! The bands of an accepted parameter set (R4), and the choices that stay in them -/

/-- The bands that an accepted parameter set has (R4). -/
structure BandsOk (p : Params) : Prop where
  target : inbandInt p.targetDefault p.targetMin p.targetMax = true
  kp : gainBandOk p.kpMin p.kpDefault p.kpMax = true
  ki : gainBandOk p.kiMin p.kiDefault p.kiMax = true
  kd : gainBandOk p.kdMin p.kdDefault p.kdMax = true
  duty : dutyBandOk p = true

theorem bandsOk_of_paramsWellFormed {p : Params} (h : paramsWellFormed p = true) : BandsOk p := by
  simp only [paramsWellFormed, targetBandOk, Bool.and_eq_true] at h
  obtain ⟨⟨⟨⟨⟨⟨⟨⟨-, htarget⟩, hkp⟩, hki⟩, hkd⟩, hduty⟩, -⟩, -⟩, -⟩ := h
  exact ⟨htarget, hkp, hki, hkd, hduty⟩

theorem default_inband {lo dflt hi : F32} (h : gainBandOk lo dflt hi = true) : inband dflt lo hi = true := by
  obtain ⟨hlo, hhi, -⟩ := (gainBandOk_iff lo dflt hi).1 h
  exact (inband_iff dflt lo hi).2 ⟨hlo, hhi⟩

/-- A gain write stores a value in band (R161 to R163). -/
theorem bandOrDefault_inband {lo dflt hi : F32} (d : Word) (h : gainBandOk lo dflt hi = true) :
    inband (bandOrDefault d lo hi dflt) lo hi = true := by
  unfold bandOrDefault
  split
  next hd => exact hd
  next => exact default_inband h

/-- A target write stores a value in band (R160). -/
theorem targetOrDefault_inband {p : Params} (d : Word) (h : inbandInt p.targetDefault p.targetMin p.targetMax = true) :
    inbandInt (targetOrDefault p d) p.targetMin p.targetMax = true := by
  unfold targetOrDefault
  split
  next hd => exact (inbandInt_iff d _ _).2 hd
  next => exact h

theorem dutyReset_inband {p : Params} (h : dutyBandOk p = true) : inband p.dutyReset p.dutyMin p.dutyMax = true := by
  obtain ⟨hlo, hhi, -⟩ := (dutyBandOk_iff p).1 h
  exact (inband_iff _ _ _).2 ⟨hlo, hhi⟩

theorem dutyInit_inband {p : Params} (h : dutyBandOk p = true) : inband p.dutyInit p.dutyMin p.dutyMax = true := by
  obtain ⟨-, -, hlo, hhi, -⟩ := (dutyBandOk_iff p).1 h
  exact (inband_iff _ _ _).2 ⟨hlo, hhi⟩

/-- Re-centering gives a duty in band, whatever the candidate (R126). -/
theorem recenter_inband {p : Params} (d0 : F32) (h : dutyBandOk p = true) :
    inband (recenter p d0) p.dutyMin p.dutyMax = true := by
  unfold recenter saturates
  cases hd : inband d0 p.dutyMin p.dutyMax
  · exact dutyReset_inband h
  · exact hd

/-- The duty band lies in [0, 1] (R4), so a duty in band has a PwmValue, and the PWM field holds it (R151). -/
theorem pwmValue_of_inband {p : Params} {f : F32} (h : dutyBandOk p = true)
    (hf : inband f p.dutyMin p.dutyMax = true) : pwmValue p f = some ((pwmField p f).toNat : Int) := by
  obtain ⟨-, -, -, -, -, hmin, hmax⟩ := (dutyBandOk_iff p).1 h
  obtain ⟨hlo, hhi⟩ := (inband_iff _ _ _).1 hf
  obtain ⟨v, hv, -, hfield⟩ := pwmValue_of_unit_interval p (f32Le_trans hmin hlo) (f32Le_trans hhi hmax)
  rw [hv, hfield]

/-! The invariants of a safe state, in two groups: those of the setting registers and those of the working registers -/

/-- The setting registers are in their bands (R21 to R24). -/
structure SettingsSafe (p : Params) (r : Arch) : Prop where
  target : inbandInt r.target p.targetMin p.targetMax = true
  kp : inband r.kp p.kpMin p.kpMax = true
  ki : inband r.ki p.kiMin p.kiMax = true
  kd : inband r.kd p.kdMin p.kdMax = true

/-- DUTY is in its band, PWM is its PwmValue, ERR and PERR agree, ADCRAW is a possible raw result (R25, R32, R35, R36). -/
structure WorkingSafe (p : Params) (r : Arch) : Prop where
  duty : inband r.duty p.dutyMin p.dutyMax = true
  pwm : pwmFollowsDuty p r = true
  errors : errorsAgree r = true
  adcraw : rawInBounds p r = true

theorem safeState_iff (s : State) : safeState s = true ↔
    paramsWellFormed s.params = true ∧ SettingsSafe s.params s.arch ∧ WorkingSafe s.params s.arch := by
  simp only [safeState, settingsInBand, Bool.and_eq_true]
  constructor
  · rintro ⟨⟨⟨⟨hp, ⟨⟨⟨htarget, hkp⟩, hki⟩, hkd⟩, hduty⟩, hpwm⟩, herr⟩, hraw⟩
    exact ⟨hp, ⟨htarget, hkp, hki, hkd⟩, ⟨hduty, hpwm, herr, hraw⟩⟩
  · rintro ⟨hp, ⟨htarget, hkp, hki, hkd⟩, ⟨hduty, hpwm, herr, hraw⟩⟩
    exact ⟨⟨⟨⟨hp, ⟨⟨⟨htarget, hkp⟩, hki⟩, hkd⟩, hduty⟩, hpwm⟩, herr⟩, hraw⟩

/-- The settings' invariants speak of the four setting registers alone. -/
theorem SettingsSafe.of_eq {p : Params} {r r' : Arch} (h : SettingsSafe p r) (htarget : r'.target = r.target)
    (hkp : r'.kp = r.kp) (hki : r'.ki = r.ki) (hkd : r'.kd = r.kd) : SettingsSafe p r' :=
  ⟨htarget ▸ h.target, hkp ▸ h.kp, hki ▸ h.ki, hkd ▸ h.kd⟩

/-- The working invariants speak of five registers alone; ADCRAW may also take another possible raw result. -/
theorem WorkingSafe.of_eq {p : Params} {r r' : Arch} (h : WorkingSafe p r) (hduty : r'.duty = r.duty)
    (hpwm : r'.pwm = r.pwm) (herr : r'.err = r.err) (hperr : r'.perr = r.perr) (hraw : rawInBounds p r' = true) :
    WorkingSafe p r' := by
  refine ⟨hduty ▸ h.duty, ?_, ?_, hraw⟩
  · rw [pwmFollowsDuty, hduty, hpwm]
    exact h.pwm
  · rw [errorsAgree, herr, hperr]
    exact h.errors

/-- The invariants speak of the parameters and the registers other than TICK_PEND alone. -/
theorem safeState_congr {s t : State} (b : Bool) (hp : t.params = s.params) (ha : t.arch = { s.arch with tickPend := b })
    (hs : safeState s = true) : safeState t = true := by
  rw [safeState_iff] at hs ⊢
  obtain ⟨hparams, hset, hwork⟩ := hs
  rw [hp, ha]
  exact ⟨hparams, hset.of_eq rfl rfl rfl rfl, hwork.of_eq rfl rfl rfl rfl hwork.adcraw⟩

/-! Each operation -/

/-- A conversion's result is a possible raw result (R12, R35). -/
theorem rawInBounds_of_adcResult {s : State} {r : Arch} (h : r.adcraw = adcResult s) :
    rawInBounds s.params r = true := by
  rw [rawInBounds, h]
  exact decide_eq_true (conversionsCoverTheRange.1 s)

/-- A TICK establishes the working invariants from every state (R126, R128). -/
theorem tickOperation_workingSafe {s : State} (hp : paramsWellFormed s.params = true) :
    WorkingSafe s.params (tickOperation s).arch := by
  have hband := (bandsOk_of_paramsWellFormed hp).duty
  have hduty : inband (tickOperation s).arch.duty s.params.dutyMin s.params.dutyMax = true := by
    rw [tickOperation_arch, pidCore_duty]
    exact recenter_inband _ hband
  have hpwm : (tickOperation s).arch.pwm = pwmField s.params (tickOperation s).arch.duty := by
    rw [tickOperation_arch, pidCore_pwm]
  have herr : (tickOperation s).arch.err = (tickOperation s).arch.perr := by
    rw [tickOperation_arch, pidCore_err_eq_perr]
  have hraw : (tickOperation s).arch.adcraw = adcResult s := by
    rw [tickOperation_arch, pidCore_adcraw]
  refine ⟨hduty, ?_, beq_iff_eq.2 herr, rawInBounds_of_adcResult hraw⟩
  rw [pwmFollowsDuty, hpwm]
  exact decide_eq_true (pwmValue_of_inband hband hduty)

theorem tickOperation_safe {s : State} (hs : safeState s = true) : safeState (tickOperation s) = true := by
  obtain ⟨hp, hset, -⟩ := (safeState_iff s).1 hs
  rw [safeState_iff, tickOperation_params]
  exact ⟨hp, hset.of_eq (by simp) (by simp) (by simp) (by simp), tickOperation_workingSafe hp⟩

/-- SAMPLE writes ADCRAW, with a possible raw result, and SAMPV, of which no invariant speaks (R102). -/
theorem sample_safe {s : State} (hs : safeState s = true) :
    safeState (withArch (sampled s) { (sampled s).arch with sampv := sampleValue s }) = true := by
  obtain ⟨hp, hset, hwork⟩ := (safeState_iff s).1 hs
  rw [safeState_iff, withArch_params, withArch_arch, sampled_params, sampled_arch]
  exact ⟨hp, hset.of_eq rfl rfl rfl rfl, hwork.of_eq rfl rfl rfl rfl (rawInBounds_of_adcResult rfl)⟩

/-- A write that leaves the settings in band and touches no working register keeps the invariants (R160 to R163). -/
theorem settingWrite_safe {s : State} {r : Arch} (hs : safeState s = true) (hset : SettingsSafe s.params r)
    (hduty : r.duty = s.arch.duty) (hpwm : r.pwm = s.arch.pwm) (herr : r.err = s.arch.err)
    (hperr : r.perr = s.arch.perr) (hraw : r.adcraw = s.arch.adcraw) : safeState (withArch s r) = true := by
  obtain ⟨hp, -, hwork⟩ := (safeState_iff s).1 hs
  have hraw' : rawInBounds s.params r = true := by
    rw [rawInBounds, hraw]
    exact hwork.adcraw
  rw [safeState_iff, withArch_params, withArch_arch]
  exact ⟨hp, hset, hwork.of_eq hduty hpwm herr hperr hraw'⟩

/-- The reset values of an accepted parameter set satisfy every invariant (R230). -/
theorem resetArch_safe {p : Params} (hp : paramsWellFormed p = true) :
    SettingsSafe p (resetArch p) ∧ WorkingSafe p (resetArch p) := by
  obtain ⟨htarget, hkp, hki, hkd, hduty⟩ := bandsOk_of_paramsWellFormed hp
  refine ⟨⟨htarget, default_inband hkp, default_inband hki, default_inband hkd⟩, ⟨dutyInit_inband hduty, ?_, ?_, ?_⟩⟩
  · exact decide_eq_true (pwmValue_of_inband hduty (dutyInit_inband hduty))
  · exact beq_iff_eq.2 rfl
  · exact decide_eq_true (Nat.zero_le _)

/-- Whatever has the reset registers of an accepted parameter set is safe. -/
theorem safeState_of_resetArch {t : State} (hp : paramsWellFormed t.params = true) (ha : t.arch = resetArch t.params) :
    safeState t = true := by
  rw [safeState_iff, ha]
  exact ⟨hp, resetArch_safe hp⟩

/-- Every instruction keeps the invariants. -/
theorem exec_safe {i : Instr} {s t : State} (hs : safeState s = true) (h : exec i s = .next t) : safeState t = true := by
  obtain ⟨hp, hset, -⟩ := (safeState_iff s).1 hs
  have hbands := bandsOk_of_paramsWellFormed hp
  cases exec_next h with
  | sample => exact sample_safe hs
  | tick => exact tickOperation_safe hs
  | wrTarget d =>
    exact settingWrite_safe hs { hset with target := targetOrDefault_inband d hbands.target } rfl rfl rfl rfl rfl
  | wrKp d => exact settingWrite_safe hs { hset with kp := bandOrDefault_inband d hbands.kp } rfl rfl rfl rfl rfl
  | wrKi d => exact settingWrite_safe hs { hset with ki := bandOrDefault_inband d hbands.ki } rfl rfl rfl rfl rfl
  | wrKd d => exact settingWrite_safe hs { hset with kd := bandOrDefault_inband d hbands.kd } rfl rfl rfl rfl rfl
  | read => exact hs
  | nothing => exact hs

/-! Each stage of a step -/

/-- Arrivals change no register but TICK_PEND (R204). -/
theorem arrivals_safe {s : State} (hs : safeState s = true) : safeState (arrivals s) = true :=
  safeState_congr _ (arrivals_params s) (arrivals_arch s) hs

/-- Arbitration changes no register but TICK_PEND (R205, R206). -/
theorem arbitrate_safe (pin : ResetPin) {s : State} (hs : safeState s = true) : safeState (arbitrate pin s).2 = true := by
  obtain ⟨-, h⟩ | ⟨-, -, h⟩ | ⟨-, -, -, h⟩ | ⟨-, -, host, x, rest, s', -, hs', -, h⟩ := arbitrate_cases pin s
  · rwa [h]
  · rw [h]
    exact safeState_congr false rfl rfl hs
  · rwa [h]
  · rw [h]
    have hp : s'.params = s.params := by obtain rfl | rfl := hs' <;> simp
    have ha : s'.arch = s.arch := by obtain rfl | rfl := hs' <;> simp
    exact safeState_congr s.arch.tickPend hp ha hs

/-- The granted operation keeps the invariants. -/
theorem stepRan_safe {g : Grant} {s u : State} (hs : safeState s = true) (h : StepRan g s u) : safeState u = true := by
  obtain ⟨hp, -⟩ := (safeState_iff s).1 hs
  cases h with
  | idle _ h => rwa [h]
  | reset _ h =>
    rw [h]
    exact safeState_of_resetArch hp (resetOperation_arch s)
  | tick _ h =>
    rw [h]
    exact tickOperation_safe hs
  | transaction _ _ _ h => exact exec_safe hs h

/-- An operation that reset ends leaves the reset registers (R232). -/
theorem aborted_safe (g : Grant) {u : State} (hp : paramsWellFormed u.params = true) : safeState (aborted g u) = true :=
  safeState_of_resetArch (by rwa [aborted_params]) (by rw [aborted_arch, aborted_params])

/-! The statements -/

/-- Settles O52: arrivals and arbitration touch TICK_PEND alone, each operation keeps the invariants, and reset
establishes them. -/
theorem stepKeepsSafeStates : Obligations.StepKeepsSafeStates := by
  intro s t hs hstep
  obtain ⟨u, hran, hu⟩ := step_cases (params_of_step hstep)
  rw [hu] at hstep
  cases hstep
  have hsafe : safeState u = true := stepRan_safe (arbitrate_safe _ (arrivals_safe hs)) hran
  split
  · obtain ⟨hp, -⟩ := (safeState_iff u).1 hsafe
    exact aborted_safe _ hp
  · exact hsafe

/-- Settles O26: the new duty is re-centered into its band, where PwmValue is what the PWM field holds. -/
theorem tickEstablishesItsInvariants : Obligations.TickEstablishesItsInvariants := by
  intro x s hp
  obtain ⟨hduty, hpwm, herr, hraw⟩ := tickOperation_workingSafe hp
  rw [← tickOperation_params s] at hduty hpwm hraw
  exact ⟨tickOperation s, rfl, hduty, hpwm, herr, hraw⟩

/-- Settles O54, by the kinds of effect an instruction can have. -/
theorem registersAreWrittenOnlyByTheirInstructions : Obligations.RegistersAreWrittenOnlyByTheirInstructions := by
  intro i s t h
  cases exec_next h with
  | sample => simp
  | tick => simp
  | wrTarget => simp
  | wrKp => simp
  | wrKi => simp
  | wrKd => simp
  | read _ _ hr => simp [hr]
  | nothing => simp

end Sys2Proof.Machine
end

section
/-! PROOFS. The memory chapter's statements (20_memory.md): byte lanes (R53), reads (R56), repeated writes (R57), and what
one step does: the transaction it runs (R60), TARGET as a whole word (R61, R65), TICKCNT as the sign of a TICK (R62) and
each host's order (R63). First what the decoder gives for a read and that it gives instructions only; then what the
arbiter starts, and what an operation and a step keep. -/

namespace Sys2Proof

/-! The decoder gives instructions (R82) -/

/-- An offset is odd, misaligned and even, or aligned (R50, R55). -/
theorem offset_kinds : ∀ a : Offset, a.getLsbD 0 = true ∨ (a.getLsbD 0 = false ∧ a.getLsbD 1 = true) ∨
    (a.getLsbD 0 = false ∧ a.getLsbD 1 = false) := by decide

theorem wellFormed_decodeRead (a : Offset) (d : Word) : wellFormed (decodeRead a d) = true := by
  obtain h0 | ⟨h0, h1⟩ | ⟨h0, h1⟩ := offset_kinds a
  · rwa [decodeRead_A0 d h0]
  · rw [decodeRead_A10 d h0 h1]
    exact (offset_A10 a).2 ⟨h0, h1⟩
  · obtain rfl | rfl | rfl | rfl | rfl | rfl | rfl | rfl | rfl | rfl | rfl | rfl | rfl | rfl | rfl | rfl :=
      offset_cases a h0 h1 <;> rfl

/-- The codes that no other row has are those with D[3:2] = 01. -/
theorem code_4to7 : ∀ op : BitVec 4, op ≠ 0x0#4 → op ≠ 0x1#4 → op ≠ 0x2#4 → op ≠ 0x3#4 → ¬ op.getLsbD 3 = true →
    (op.extractLsb' 2 2 == 0b01#2) = true := by decide

theorem wellFormed_decodeCommand (d : Word) : wellFormed (decodeCommand d) = true := by
  unfold decodeCommand
  dsimp only
  split_ifs with h0 h1 h2 h3 h8
  · rfl
  · rfl
  · rfl
  · rfl
  · exact h8
  · exact code_4to7 _ h0 h1 h2 h3 h8

theorem wellFormed_decodeWrite (a : Offset) (d : Word) : wellFormed (decodeWrite a d) = true := by
  obtain h0 | ⟨h0, h1⟩ | ⟨h0, h1⟩ := offset_kinds a
  · rwa [decodeWrite_A0 d h0]
  · rw [decodeWrite_A10 d h0 h1]
    exact (offset_A10 a).2 ⟨h0, h1⟩
  · obtain rfl | rfl | rfl | rfl | rfl | rfl | rfl | rfl | rfl | rfl | rfl | rfl | rfl | rfl | rfl | rfl :=
      offset_cases a h0 h1
    case inl => exact wellFormed_decodeCommand d
    all_goals rfl

/-- Every word decodes to an instruction (R82). -/
theorem wellFormed_decode (t : Txn) : wellFormed (decode t) = true := by
  unfold decode
  split
  next => exact wellFormed_decodeWrite _ _
  next => exact wellFormed_decodeRead _ _

end Sys2Proof

namespace Sys2Proof.Machine

/-! Byte lanes (R53) -/

theorem getLsbD_byteLane (d : Word) (k j : Nat) :
    (byteLane d k).getLsbD j = (decide (j < 8) && d.getLsbD (8 * k + j)) :=
  BitVec.getLsbD_extractLsb' _ _ _ _

/-- Settles O59: lane by lane, the lanes make up the lowest 8, 16, 24 and 32 bits of the word. -/
theorem byteLanesAreLittleEndian : Obligations.ByteLanesAreLittleEndian := by
  refine fun d => ⟨?_, fun k _ j hj => by rw [getLsbD_byteLane, decide_eq_true hj, Bool.true_and]⟩
  have h16 : byteLane d 1 ++ byteLane d 0 = d.extractLsb' 0 16 :=
    BitVec.extractLsb'_append_extractLsb'_eq_extractLsb' rfl
  have h24 : byteLane d 2 ++ d.extractLsb' 0 16 = d.extractLsb' 0 24 :=
    BitVec.extractLsb'_append_extractLsb'_eq_extractLsb' rfl
  have h32 : byteLane d 3 ++ d.extractLsb' 0 24 = d.extractLsb' 0 32 :=
    BitVec.extractLsb'_append_extractLsb'_eq_extractLsb' rfl
  rw [h16, h24, h32]
  exact BitVec.extractLsb'_eq_self

/-! Reads (R52, R56) -/

/-- A misaligned offset is no register's (R55). -/
theorem readOffset_misaligned (r : Arch) {a : Offset} (ha : a.getLsbD 0 = true ∨ a.getLsbD 1 = true) :
    readOffset r a = 0x00000000#32 := by
  have hne : a ≠ 0x04#6 ∧ a ≠ 0x08#6 ∧ a ≠ 0x0C#6 ∧ a ≠ 0x10#6 ∧ a ≠ 0x14#6 ∧ a ≠ 0x18#6 ∧ a ≠ 0x1C#6 ∧ a ≠ 0x20#6 ∧
      a ≠ 0x24#6 ∧ a ≠ 0x28#6 ∧ a ≠ 0x2C#6 ∧ a ≠ 0x30#6 ∧ a ≠ 0x34#6 ∧ a ≠ 0x38#6 := by
    decide +revert
  simp only [readOffset, hne, if_false]

/-- A read of any offset answers with the register map's value and does nothing else (R56, R181). -/
theorem exec_decodeRead (a : Offset) (d : Word) (s : State) :
    exec (decodeRead a d) s = .next (respond s (readOffset s.arch a)) := by
  obtain h0 | ⟨h0, h1⟩ | ⟨h0, h1⟩ := offset_kinds a
  · rw [decodeRead_A0 d h0, readOffset_misaligned _ (.inl h0)]
    rfl
  · rw [decodeRead_A10 d h0 h1, readOffset_misaligned _ (.inr h1)]
    rfl
  · obtain rfl | rfl | rfl | rfl | rfl | rfl | rfl | rfl | rfl | rfl | rfl | rfl | rfl | rfl | rfl | rfl :=
      offset_cases a h0 h1 <;> rfl

theorem exec_read (a : Offset) (d : Word) (s : State) :
    exec (decode (mkTxn false a d)) s = .next (respond s (readOffset s.arch a)) := by
  rw [decode_mkTxn]
  exact exec_decodeRead a d s

/-- Settles O6: the answer depends on the offset and the registers alone. -/
theorem readsHaveNoSideEffect : Obligations.ReadsHaveNoSideEffect := by
  refine fun a d d' s => ⟨exec_read a d s, fun t ht => ?_⟩
  rw [← ht]
  exact exec_read a d' t

/-! Repeated writes (R57) -/

/-- An instruction that only stores what the parameters fix, whatever the register held, does the same the second time. -/
theorem exec_idempotent_of_store {i : Instr} {f : Params → Arch → Arch}
    (hexec : ∀ s, exec i s = .next (withArch s (f s.params s.arch))) (hf : ∀ p r, f p (f p r) = f p r) {s t : State}
    (h : exec i s = .next t) : exec i t = .next t := by
  rw [hexec] at h
  cases h
  rw [hexec, withArch_params, withArch_arch, hf, withArch_withArch]

/-- Settles O16: the stored value is a function of the data word and the parameters. -/
theorem settingWritesAreIdempotent : Obligations.SettingWritesAreIdempotent := by
  intro d s t i hi h
  simp only [List.mem_cons, List.not_mem_nil, or_false] at hi
  obtain rfl | rfl | rfl | rfl := hi
  · exact exec_idempotent_of_store (f := fun p r => { r with target := targetOrDefault p d })
      (fun _ => rfl) (fun _ _ => rfl) h
  · exact exec_idempotent_of_store (f := fun p r => { r with kp := bandOrDefault d p.kpMin p.kpMax p.kpDefault })
      (fun _ => rfl) (fun _ _ => rfl) h
  · exact exec_idempotent_of_store (f := fun p r => { r with ki := bandOrDefault d p.kiMin p.kiMax p.kiDefault })
      (fun _ => rfl) (fun _ _ => rfl) h
  · exact exec_idempotent_of_store (f := fun p r => { r with kd := bandOrDefault d p.kdMin p.kdMax p.kdDefault })
      (fun _ => rfl) (fun _ _ => rfl) h

/-! What the arbiter starts, and what arbitration keeps (R205, R206) -/

/-- Arbitration touches no parameter and no register but TICK_PEND. -/
theorem arbitrate_frame (pin : ResetPin) (s : State) :
    (arbitrate pin s).2.params = s.params ∧ ∃ b, (arbitrate pin s).2.arch = { s.arch with tickPend := b } := by
  obtain ⟨-, h⟩ | ⟨-, -, h⟩ | ⟨-, -, -, h⟩ | ⟨-, -, host, x, rest, s', -, hs', -, h⟩ := arbitrate_cases pin s
  case inr.inr.inr =>
    rw [h]
    obtain rfl | rfl := hs'
    · exact ⟨rfl, _, rfl⟩
    · exact ⟨orderTaken_params s, _, orderTaken_arch s⟩
  all_goals
    rw [h]
    exact ⟨rfl, _, rfl⟩

/-- Only reset at the arbitration point is granted a reset (R206). -/
theorem pin_of_arbitrate_reset {pin : ResetPin} {s : State} (hg : (arbitrate pin s).1 = .reset) : pin = .first := by
  obtain ⟨hpin, -⟩ | ⟨-, -, h⟩ | ⟨-, -, -, h⟩ | ⟨-, -, host, x, rest, s', -, -, -, h⟩ := arbitrate_cases pin s
  · exact hpin
  all_goals
    rw [h] at hg
    cases hg

/-- A transaction that is started was waiting. -/
theorem mem_waiting_of_arbitrate {pin : ResetPin} {s : State} {h : Nat} {x : Txn}
    (hg : (arbitrate pin s).1 = .transaction h x) : (h, x) ∈ s.waiting := by
  obtain ⟨-, ha⟩ | ⟨-, -, ha⟩ | ⟨-, -, -, ha⟩ | ⟨-, -, h', x', rest, s', -, -, hf, ha⟩ := arbitrate_cases pin s
  case inr.inr.inr =>
    rw [ha] at hg
    cases hg
    obtain ⟨pre, post, hw, -, -⟩ := takeFirst_append hf
    rw [hw]
    exact List.mem_append_right _ List.mem_cons_self
  all_goals
    rw [ha] at hg
    cases hg

/-- Arbitration leaves each host's queue, or takes the first transaction from the queue of the host it serves (R63). -/
theorem arbitrate_hostQueue (pin : ResetPin) (s : State) (h : Nat) :
    hostQueue h (arbitrate pin s).2.waiting = hostQueue h s.waiting ∨
    ((arbitrate pin s).2.served = some h ∧ ∃ x, hostQueue h s.waiting = x :: hostQueue h (arbitrate pin s).2.waiting) := by
  obtain ⟨-, ha⟩ | ⟨-, -, ha⟩ | ⟨-, -, -, ha⟩ | ⟨-, -, h', x, rest, s', hm, -, hf, ha⟩ := arbitrate_cases pin s
  case inr.inr.inr =>
    obtain ⟨x', rest', hf', -, hown, hother⟩ := takeFirst_spec hm
    rw [hf] at hf'
    cases hf'
    rw [ha]
    by_cases hh : h = h'
    · subst hh
      exact .inr ⟨rfl, x, hown⟩
    · exact .inl (hother h hh)
  all_goals
    rw [ha]
    exact .inl rfl

/-! What the granted operation and a step keep -/

/-- A step's next state is what its operation left, or what reset during the operation made of that. -/
theorem step_next {s t : State} (h : step s = .next t) :
    ∃ u, StepRan (arbitrate (slotOf s).reset (arrivals s)).1 (arbitrate (slotOf s).reset (arrivals s)).2 u ∧
      t = if (slotOf s).reset = .during then aborted (arbitrate (slotOf s).reset (arrivals s)).1 u else u := by
  obtain ⟨u, hran, hu⟩ := step_cases (params_of_step h)
  rw [hu] at h
  cases h
  exact ⟨u, hran, rfl⟩

/-- No operation touches the parameters, the queue or the record of who was served. -/
theorem StepRan.env {g : Grant} {s u : State} (h : StepRan g s u) :
    u.params = s.params ∧ u.waiting = s.waiting ∧ u.served = s.served := by
  cases h with
  | idle _ h => simp [h]
  | reset _ h => simp [h]
  | tick _ h => simp [h]
  | transaction _ _ _ h =>
    obtain ⟨hparams, hwaiting, -, -, hserved⟩ := exec_env h
    exact ⟨hparams, hwaiting, hserved⟩

/-- The queue and the served host after a step are those that arbitration left. -/
theorem step_waiting {s t : State} (h : step s = .next t) :
    t.waiting = (arbitrate (slotOf s).reset (arrivals s)).2.waiting ∧
    t.served = (arbitrate (slotOf s).reset (arrivals s)).2.served := by
  obtain ⟨u, hran, rfl⟩ := step_next h
  obtain ⟨-, hwaiting, hserved⟩ := hran.env
  split <;> simp [hwaiting, hserved]

/-- Settles O51: arbitration alone takes from the queue, and takes the served host's first transaction. -/
theorem eachHostKeepsItsOrder : Obligations.EachHostKeepsItsOrder := by
  intro s t h hstep
  obtain ⟨hwaiting, hserved⟩ := step_waiting hstep
  rw [hwaiting, hserved, ← arrivals_waiting]
  exact arbitrate_hostQueue _ _ h

/-! TICKCNT and the working registers (R62) -/

/-- TICKCNT and the registers that TICK writes hold the same values. -/
structure SameWorking (r r' : Arch) : Prop where
  tickcnt : r'.tickcnt = r.tickcnt
  meas : r'.meas = r.meas
  err : r'.err = r.err
  perr : r'.perr = r.perr
  integ : r'.integ = r.integ
  deriv : r'.deriv = r.deriv
  duty : r'.duty = r.duty
  pwm : r'.pwm = r.pwm

/-- The working registers are kept, or TICKCNT advances by one. -/
def KeepsOrTicks (r r' : Arch) : Prop := SameWorking r r' ∨ r'.tickcnt = r.tickcnt + 1#32

/-- A TICK advances TICKCNT (R129). -/
theorem tickOperation_keepsOrTicks (s : State) : KeepsOrTicks s.arch (tickOperation s).arch := by
  rw [tickOperation_arch]
  exact .inr rfl

theorem exec_keepsOrTicks {i : Instr} {s t : State} (h : exec i s = .next t) : KeepsOrTicks s.arch t.arch := by
  cases exec_next h with
  | tick => exact tickOperation_keepsOrTicks s
  | sample =>
    rw [withArch_arch, sampled_arch]
    exact .inl ⟨rfl, rfl, rfl, rfl, rfl, rfl, rfl, rfl⟩
  | wrTarget | wrKp | wrKi | wrKd | read | nothing => exact .inl ⟨rfl, rfl, rfl, rfl, rfl, rfl, rfl, rfl⟩

theorem StepRan.keepsOrTicks {g : Grant} {s u : State} (h : StepRan g s u) (hg : g ≠ .reset) :
    KeepsOrTicks s.arch u.arch := by
  cases h with
  | idle _ h =>
    rw [h]
    exact .inl ⟨rfl, rfl, rfl, rfl, rfl, rfl, rfl, rfl⟩
  | reset hreset => exact absurd hreset hg
  | tick _ h =>
    rw [h]
    exact tickOperation_keepsOrTicks s
  | transaction _ _ _ h => exact exec_keepsOrTicks h

/-- Settles O55: without reset the only operation that writes a working register is TICK, which advances TICKCNT. -/
theorem tickcntShowsEveryTick : Obligations.TickcntShowsEveryTick := by
  intro s t hstep hlow
  obtain ⟨u, hran, rfl⟩ := step_next hstep
  obtain ⟨-, b, harch⟩ := arbitrate_frame (slotOf s).reset (arrivals s)
  have hgrant : (arbitrate (slotOf s).reset (arrivals s)).1 ≠ .reset := fun hg =>
    absurd (hlow.symm.trans (pin_of_arbitrate_reset hg)) (by decide)
  have hkeeps := hran.keepsOrTicks hgrant
  rw [harch] at hkeeps
  rw [if_neg (by rw [hlow]; decide)]
  obtain ⟨h1, h2, h3, h4, h5, h6, h7, h8⟩ | htick := hkeeps
  · exact .inl ⟨h1, h2, h3, h4, h5, h6, h7, h8⟩
  · refine .inr ⟨htick, ?_⟩
    rw [htick]
    simp

/-! TARGET (R61, R65) -/

/-- A target write stores its whole data word or the default (R160). -/
theorem targetOrDefault_cases (p : Params) (d : Word) :
    targetOrDefault p d = d ∨ targetOrDefault p d = p.targetDefault := by
  unfold targetOrDefault
  split
  next => exact .inl rfl
  next => exact .inr rfl

/-- What an instruction can leave in TARGET. -/
theorem exec_target {i : Instr} {s t : State} (h : exec i s = .next t) :
    t.arch.target = s.arch.target ∨ t.arch.target = s.params.targetDefault ∨ i = .wrTarget t.arch.target := by
  cases exec_next h with
  | wrTarget d =>
    right
    rw [withArch_arch]
    obtain hd | hd := targetOrDefault_cases s.params d
    · exact .inr (congrArg Instr.wrTarget hd.symm)
    · exact .inl hd
  | sample | tick => simp
  | wrKp | wrKi | wrKd | read | nothing => exact .inl rfl

/-- What a granted operation can leave in TARGET. -/
theorem StepRan.target {g : Grant} {s u : State} (h : StepRan g s u) :
    u.arch.target = s.arch.target ∨ u.arch.target = s.params.targetDefault ∨
    ∃ host x, g = .transaction host x ∧ decode x = .wrTarget u.arch.target := by
  cases h with
  | idle _ h => exact .inl (by rw [h])
  | reset _ h => exact .inr (.inl (by rw [h]; rfl))
  | tick _ h => exact .inl (by rw [h, tickOperation_arch, pidCore_target])
  | transaction host x hg h =>
    obtain hkept | hdefault | hword := exec_target h
    · exact .inl hkept
    · exact .inr (.inl hdefault)
    · exact .inr (.inr ⟨host, x, hg, hword⟩)

/-- Settles O56: the operation's transaction was waiting, and a reset stores the default. -/
theorem targetIsNeverTorn : Obligations.TargetIsNeverTorn := by
  intro s t hstep
  obtain ⟨u, hran, rfl⟩ := step_next hstep
  obtain ⟨hparams, b, harch⟩ := arbitrate_frame (slotOf s).reset (arrivals s)
  obtain ⟨hparams', -, -⟩ := hran.env
  split
  · right; left
    rw [aborted_arch, hparams', hparams]
    rfl
  · have htarget := hran.target
    rw [harch, hparams] at htarget
    obtain hkept | hdefault | ⟨host, x, hg, hword⟩ := htarget
    · exact .inl hkept
    · exact .inr (.inl hdefault)
    · exact .inr (.inr ⟨(host, x), mem_waiting_of_arbitrate hg, hword⟩)

/-! The transaction that a step runs (R60, R205) -/

/-- The arbiter's choice among the hosts that wait uses a choice number unless one host has the whole queue (log entry 4). -/
theorem chooseHost_eq {s : State} (hw : s.waiting ≠ []) :
    ∃ h ∈ hostsOf s.waiting, chooseHost s = some (h, if ∀ e ∈ s.waiting, e.1 = h then s else orderTaken s) := by
  have hhead : s.waiting.headD (0, 0#39) ∈ s.waiting := by
    obtain ⟨e, w, hcons⟩ := List.exists_cons_of_ne_nil hw
    simp [hcons]
  by_cases hall : ∀ e ∈ s.waiting, e.1 = (s.waiting.headD (0, 0#39)).1
  · refine ⟨(s.waiting.headD (0, 0#39)).1, mem_hostsOf.2 ⟨_, hhead⟩, ?_⟩
    rw [if_pos hall, chooseHost, hostsOf_single hw hall]
  · obtain ⟨h, hchoice, hmem⟩ := chooseHost_several hall
    have hnot : ¬ ∀ e ∈ s.waiting, e.1 = h := fun hone => hall fun e he => (hone e he).trans (hone _ hhead).symm
    exact ⟨h, hmem, by rw [if_neg hnot, hchoice]⟩

/-- With no tick pending the arbiter starts some waiting host's first transaction, whose entry alone leaves the queue. -/
theorem arbitrate_low {s : State} (ht : s.arch.tickPend = false) (hw : s.waiting ≠ []) :
    ∃ h w pre post, s.waiting = pre ++ (h, w) :: post ∧ (∀ e ∈ pre, e.1 ≠ h) ∧
      arbitrate .low s = (.transaction h w, { (if ∀ e ∈ s.waiting, e.1 = h then s else orderTaken s) with
        waiting := pre ++ post
        served := some h }) := by
  obtain ⟨h, hmem, hchoice⟩ := chooseHost_eq hw
  obtain ⟨w, rest, hfirst, -⟩ := takeFirst_spec hmem
  obtain ⟨pre, post, hsplit, rfl, hpre⟩ := takeFirst_append hfirst
  exact ⟨h, w, pre, post, hsplit, hpre, by simp [arbitrate, ht, hchoice, hfirst]⟩

/-- A step without reset that grants a transaction is exec of its decoded word. -/
theorem step_of_transaction {s s1 : State} {h : Nat} {w : Txn} (hp : paramsWellFormed s.params = true)
    (hlow : (slotOf s).reset = .low) (hg : arbitrate .low (arrivals s) = (.transaction h w, s1)) :
    step s = exec (decode w) s1 := by
  rw [step, stepWith, if_pos hp, hlow, hg]
  rfl

/-- Without a strobe the arrivals touch no register. -/
theorem arrivals_quiet {s : State} (hs : (slotOf s).strobes = 0) :
    arrivals s = { s with
      waiting := s.waiting ++ (slotOf s).submits
      inputs := s.inputs.tail
      rdata := none
      served := none } := by
  have htick : (s.arch.tickPend || decide (0 < (slotOf s).strobes)) = s.arch.tickPend := by
    rw [hs]
    exact Bool.or_false _
  rw [arrivals, htick]

/-- Taking a choice number and the arrivals touch different fields. -/
theorem orderTaken_arrivals (s : State) : orderTaken (arrivals s) = arrivals (orderTaken s) := by
  unfold orderTaken
  rw [arrivals_orderIn]
  split <;> rfl

/-- A queue of one host alone splits at that host's first transaction in one way. -/
theorem split_of_one_host {h h' : Nat} {w w' : Txn} {rest pre post : List (Nat × Txn)} (hall : ∀ e ∈ rest, e.1 = h)
    (hsplit : (h, w) :: rest = pre ++ (h', w') :: post) (hpre : ∀ e ∈ pre, e.1 ≠ h') :
    h' = h ∧ w' = w ∧ pre ++ post = rest := by
  cases pre with
  | nil =>
    cases hsplit
    exact ⟨rfl, rfl, rfl⟩
  | cons e pre =>
    rw [List.cons_append] at hsplit
    cases hsplit
    have hh : h' = h := hall (h', w') (List.mem_append_right _ List.mem_cons_self)
    exact absurd hh.symm (hpre (h, w) List.mem_cons_self)

/-- Without a tick or reset, a step is exec of some waiting host's first transaction, whose entry alone leaves the queue. -/
theorem step_serves {s : State} (hp : paramsWellFormed s.params = true) (hlow : (slotOf s).reset = .low)
    (ht : s.arch.tickPend = false) (hs : (slotOf s).strobes = 0) (hw : s.waiting ++ (slotOf s).submits ≠ []) :
    ∃ h w pre post, s.waiting ++ (slotOf s).submits = pre ++ (h, w) :: post ∧ (∀ e ∈ pre, e.1 ≠ h) ∧
      step s = exec (decode w) { (if ∀ e ∈ s.waiting ++ (slotOf s).submits, e.1 = h then s else orderTaken s) with
        waiting := pre ++ post
        inputs := s.inputs.tail
        rdata := none
        served := some h } := by
  have htick : (arrivals s).arch.tickPend = false := by
    rw [arrivals_quiet hs]
    exact ht
  obtain ⟨h, w, pre, post, hsplit, hpre, harb⟩ := arbitrate_low htick hw
  refine ⟨h, w, pre, post, hsplit, hpre, ?_⟩
  rw [step_of_transaction hp hlow harb, arrivals_waiting]
  split
  · rw [arrivals_quiet hs]
  · rw [orderTaken_arrivals, arrivals_quiet (by rwa [slotOf, orderTaken_inputs]), orderTaken_inputs]

/-- Settles O46: a queue of one host has one first transaction, and needs no choice number. -/
theorem stepRunsTheDecodedTransaction : Obligations.StepRunsTheDecodedTransaction := by
  constructor
  · rintro s h w rest i hp hlow ht hs hqueue hall rfl
    obtain ⟨h', w', pre, post, hsplit, hpre, hstep⟩ := step_serves hp hlow ht hs (by simp [hqueue])
    rw [hqueue] at hsplit
    obtain ⟨rfl, rfl, hrest⟩ := split_of_one_host hall hsplit hpre
    have hone : ∀ e ∈ s.waiting ++ (slotOf s).submits, e.1 = h' := by
      rw [hqueue]
      exact List.forall_mem_cons.2 ⟨rfl, hall⟩
    rw [if_pos hone, hrest] at hstep
    exact ⟨wellFormed_decode w', hstep⟩
  · intro s hp hlow ht hs hw
    obtain ⟨h, w, pre, post, hsplit, hpre, hstep⟩ := step_serves hp hlow ht hs hw
    exact ⟨h, w, pre, post, hsplit, hpre, wellFormed_decode w, hstep⟩

end Sys2Proof.Machine
end

section
/-! PROOFS. The encoding chapter's statements (30_encoding.md): the decoder and the encoder are inverse to each other (R80,
R82), the rows of the opcode table are disjoint and cover every word (R82, R83), the ignored bits of a CMD write (R84), and
what the host's pseudo-instructions issue and store (R86 to R91). -/

namespace Sys2Proof

/-! Decoding an encoded instruction (R80, R82) -/

/-- The decoder on a CMD write, code by code (R82). -/
theorem decode_command (op : BitVec 4) (ign : BitVec 28) : decode (mkTxn true 0x00#6 (mkCmd op ign)) =
    if op = 0x0#4 then .nop ign else if op = 0x1#4 then .tick ign else if op = 0x2#4 then .sample ign
    else if op = 0x3#4 then .rsvCmd3 ign else if op.getLsbD 3 then .rsvCmd8toF op ign else .rsvCmd4to7 op ign :=
  (decode_mkTxn true 0x00#6 _).trans (decodeCommand_mkCmd op ign)

/-- A code with D[3:2] = 01 is no other row's. -/
theorem code_4to7_ne : ∀ op : BitVec 4, (op.extractLsb' 2 2 == 0b01#2) = true →
    op ≠ 0x0#4 ∧ op ≠ 0x1#4 ∧ op ≠ 0x2#4 ∧ op ≠ 0x3#4 ∧ ¬ op.getLsbD 3 = true := by decide

/-- A code with D[3] = 1 is none of the first four. -/
theorem code_8toF_ne : ∀ op : BitVec 4, op.getLsbD 3 = true →
    op ≠ 0x0#4 ∧ op ≠ 0x1#4 ∧ op ≠ 0x2#4 ∧ op ≠ 0x3#4 := by decide

/-- Settles O1: a row that fixes the whole offset or the whole code decodes by evaluation on it; the six rows that leave
bits of them open, by the bits that well-formedness fixes. -/
theorem decodeInvertsEncode : Obligations.DecodeInvertsEncode := by
  intro i hwf
  cases i with
  | nop ign | tick ign | sample ign | rsvCmd3 ign => exact decode_command _ ign
  | rsvCmd4to7 op ign =>
    obtain ⟨h0, h1, h2, h3, h8⟩ := code_4to7_ne op hwf
    rw [encode, decode_command, if_neg h0, if_neg h1, if_neg h2, if_neg h3, if_neg h8]
  | rsvCmd8toF op ign =>
    obtain ⟨h0, h1, h2, h3⟩ := code_8toF_ne op hwf
    rw [encode, decode_command, if_neg h0, if_neg h1, if_neg h2, if_neg h3]
    exact if_pos hwf
  | rsvWrMisalignedA0 a d => exact (decode_mkTxn true a d).trans (decodeWrite_A0 d hwf)
  | rsvWrMisalignedA10 a d =>
    obtain ⟨h0, h1⟩ := (offset_A10 a).1 hwf
    exact (decode_mkTxn true a d).trans (decodeWrite_A10 d h0 h1)
  | rsvRdMisalignedA0 a d => exact (decode_mkTxn false a d).trans (decodeRead_A0 d hwf)
  | rsvRdMisalignedA10 a d =>
    obtain ⟨h0, h1⟩ := (offset_A10 a).1 hwf
    exact (decode_mkTxn false a d).trans (decodeRead_A10 d h0 h1)
  | _ => exact decode_mkTxn _ _ _

/-! Encoding a decoded word (R80, R82) -/

theorem encode_decodeCommand (d : Word) : encode (decodeCommand d) = mkTxn true 0x00#6 d := by
  rw [← mkCmd_fields d, decodeCommand_mkCmd]
  split_ifs with h0 h1 h2 h3
  · rw [h0, encode]
  · rw [h1, encode]
  · rw [h2, encode]
  · rw [h3, encode]
  · rfl
  · rfl

theorem encode_decodeWrite (a : Offset) (d : Word) : encode (decodeWrite a d) = mkTxn true a d := by
  obtain h0 | ⟨h0, h1⟩ | ⟨h0, h1⟩ := offset_kinds a
  · rw [decodeWrite_A0 d h0, encode]
  · rw [decodeWrite_A10 d h0 h1, encode]
  · obtain rfl | rfl | rfl | rfl | rfl | rfl | rfl | rfl | rfl | rfl | rfl | rfl | rfl | rfl | rfl | rfl :=
      offset_cases a h0 h1
    case inl => exact encode_decodeCommand d
    all_goals rfl

theorem encode_decodeRead (a : Offset) (d : Word) : encode (decodeRead a d) = mkTxn false a d := by
  obtain h0 | ⟨h0, h1⟩ | ⟨h0, h1⟩ := offset_kinds a
  · rw [decodeRead_A0 d h0, encode]
  · rw [decodeRead_A10 d h0 h1, encode]
  · obtain rfl | rfl | rfl | rfl | rfl | rfl | rfl | rfl | rfl | rfl | rfl | rfl | rfl | rfl | rfl | rfl :=
      offset_cases a h0 h1 <;> rfl

theorem encode_decode (t : Txn) : encode (decode t) = t := by
  have hfields := mkTxn_fields t
  unfold decode
  split
  next hw => rwa [encode_decodeWrite, ← hw]
  next hr => rwa [encode_decodeRead, ← Bool.eq_false_iff.2 hr]

/-- Settles O2: the encoder puts the fields that the decoder took apart together again. -/
theorem encodeInvertsDecode : Obligations.EncodeInvertsDecode :=
  fun t => ⟨encode_decode t, wellFormed_decode t⟩

/-! The opcode table (R82, R83) -/

/-- The encoding of a well-formed instruction is selected by the instruction's row. -/
theorem rowOf_selects_encode (i : Instr) : Laws.Encoding.Statement i := by
  cases i with
  | nop ign | tick ign | sample ign | rsvCmd3 ign => exact fun _ => Laws.Encoding.selects_command _ ign (by decide)
  | rsvCmd4to7 op ign => exact Laws.Encoding.rsvCmd4to7 op ign
  | rsvCmd8toF op ign => exact Laws.Encoding.rsvCmd8toF op ign
  | rsvWrMisalignedA0 a d => exact Laws.Encoding.rsvWrMisalignedA0 a d
  | rsvWrMisalignedA10 a d => exact Laws.Encoding.rsvWrMisalignedA10 a d
  | rsvRdMisalignedA0 a d => exact Laws.Encoding.rsvRdMisalignedA0 a d
  | rsvRdMisalignedA10 a d => exact Laws.Encoding.rsvRdMisalignedA10 a d
  | _ => exact fun _ => Laws.Encoding.selects_offset _ _ (by decide)

theorem rowOf_decode_selects (t : Txn) : rowSelects (rowOf (decode t)) t = true := by
  have h := rowOf_selects_encode (decode t) (wellFormed_decode t)
  rwa [encode_decode] at h

/-- One instruction for each row, in the table's order. -/
def rowInstrs : List Instr :=
  [.nop 0, .tick 0, .sample 0, .rsvCmd3 0, .rsvCmd4to7 0 0, .rsvCmd8toF 0 0, .wrTarget 0, .wrKp 0, .wrKi 0, .wrKd 0,
   .rsvWrMeas 0, .rsvWrErr 0, .rsvWrPerr 0, .rsvWrInteg 0, .rsvWrDeriv 0, .rsvWrDuty 0, .rsvWrPwm 0, .rsvWrSampv 0,
   .rsvWrAdcraw 0, .rsvWrTickcnt 0, .rsvWr3C 0, .rsvWrMisalignedA0 0 0, .rsvWrMisalignedA10 0 0, .rdCmd 0, .rdTarget 0,
   .rdKp 0, .rdKi 0, .rdKd 0, .rdMeas 0, .rdErr 0, .rdPerr 0, .rdInteg 0, .rdDeriv 0, .rdDuty 0, .rdPwm 0, .rdSampv 0,
   .rdAdcraw 0, .rdTickcnt 0, .rsvRd3C 0, .rsvRdMisalignedA0 0 0, .rsvRdMisalignedA10 0 0]

/-- The opcode table. -/
def opcodeTable : List Row := rowInstrs.map rowOf

theorem rowOf_mem_opcodeTable (i : Instr) : rowOf i ∈ opcodeTable :=
  List.mem_of_getElem? (i := i.ctorIdx) (by cases i <;> rfl)

/-- Two rows that agree on the bits which both fix are the same row. -/
theorem opcodeTable_disjoint : ∀ r ∈ opcodeTable, ∀ r' ∈ opcodeTable,
    r.pattern &&& r'.mask = r'.pattern &&& r.mask → r = r' := by decide

/-- Rows that select one word agree on the bits which both fix. -/
theorem agree_of_rowSelects {r r' : Row} {t : Txn} (h : rowSelects r t = true) (h' : rowSelects r' t = true) :
    r.pattern &&& r'.mask = r'.pattern &&& r.mask := by
  rw [rowSelects, beq_iff_eq] at h h'
  rw [← h, ← h', BitVec.and_assoc, BitVec.and_assoc, BitVec.and_comm r.mask]

/-- Settles O3: a word is the encoding of what it decodes to, and rows that both select it are one row. -/
theorem opcodeRowsDisjointAndTotal : Obligations.OpcodeRowsDisjointAndTotal := by
  refine fun t => ⟨rowOf_decode_selects t, fun i hi => ?_⟩
  exact opcodeTable_disjoint _ (rowOf_mem_opcodeTable i) _ (rowOf_mem_opcodeTable (decode t))
    (agree_of_rowSelects hi (rowOf_decode_selects t))

/-! Words of the test vectors (R80 to R84) -/

/-- Settles O4: closed words, decoded by evaluation. -/
theorem sampleWordsDecode : Obligations.SampleWordsDecode := by
  unfold Obligations.SampleWordsDecode
  decide

end Sys2Proof

namespace Sys2Proof.Machine

/-! The ignored bits of a CMD write (R84) -/

/-- A CMD write does what its code says, whatever D[31:4] holds. -/
theorem exec_command_ign (op : BitVec 4) (ign ign' : BitVec 28) (s : State) :
    exec (decode (mkTxn true 0x00#6 (mkCmd op ign))) s = exec (decode (mkTxn true 0x00#6 (mkCmd op ign'))) s := by
  rw [decode_command, decode_command]
  split_ifs <;> rfl

/-- Settles O5: a data word is its code and its ignored bits. -/
theorem commandUpperBitsIgnored : Obligations.CommandUpperBitsIgnored := by
  refine ⟨fun d d' s hop => ?_, by decide, by decide, by decide, by decide⟩
  have h := exec_command_ign (cmdOp d) (cmdIgn d) (cmdIgn d') s
  rwa [mkCmd_fields, hop, mkCmd_fields] at h

/-! The host's target writes (R86, R88, R89, R91, R160) -/

/-- What a host's WR TARGET does. -/
theorem exec_writeTarget (d : Word) (s : State) : exec (decode (assemble (.wr .target d))) s =
    .next (withArch s { s.arch with target := targetOrDefault s.params d }) := by
  rw [assemble, decode_mkTxn]
  rfl

theorem targetOrDefault_default (p : Params) : targetOrDefault p p.targetDefault = p.targetDefault := by
  unfold targetOrDefault
  split <;> rfl

/-- What TARGET becomes when the exact integer n is written (R14, R160). -/
def targetOfInt (p : Params) (n : Int) : Word :=
  if p.targetMin.toInt ≤ n ∧ n ≤ p.targetMax.toInt then BitVec.ofInt 32 n else p.targetDefault

/-- The word of an int32 is read back as it. -/
theorem targetOrDefault_ofInt (p : Params) {n : Int} (hn : -(2 ^ 31) ≤ n ∧ n < 2 ^ 31) :
    targetOrDefault p (BitVec.ofInt 32 n) = targetOfInt p n := by
  have hint : asInt32 (BitVec.ofInt 32 n) = n := BitVec.toInt_ofInt_eq_self (by decide) hn.1 hn.2
  rw [targetOrDefault, hint, targetOfInt]

/-- What is no int32 is in no target band. -/
theorem targetOfInt_of_not_int32 (p : Params) {n : Int} (hn : ¬ (-(2 ^ 31) ≤ n ∧ n < 2 ^ 31)) :
    targetOfInt p n = p.targetDefault := by
  have hmin := BitVec.le_toInt p.targetMin
  have hmax := BitVec.toInt_lt (x := p.targetMax)
  exact if_neg (by omega)

/-- The host's write of an exact integer stores it or the default, also where no word holds it (log entry 17). -/
theorem exec_targetWrite (n : Int) (s : State) : exec (decode (targetWrite s.params n)) s =
    .next (withArch s { s.arch with target := targetOfInt s.params n }) := by
  rw [targetWrite, exec_writeTarget, valueWord]
  split
  next hn => rw [Option.getD_some, targetOrDefault_ofInt _ hn]
  next hn => rw [Option.getD_none, targetOrDefault_default, targetOfInt_of_not_int32 _ hn]

/-- A trim's write stores the exact integer where its condition holds and the default otherwise (R88, R89). -/
theorem exec_trimWrite (c : Bool) (n : Int) (s : State) :
    exec (decode (if c then targetWrite s.params n else assemble (.wr .target s.params.targetDefault))) s =
    .next { s with arch := { s.arch with
      target := if c = true ∧ s.params.targetMin.toInt ≤ n ∧ n ≤ s.params.targetMax.toInt
        then BitVec.ofInt 32 n else s.params.targetDefault } } := by
  cases c with
  | true =>
    simp only [true_and, if_true]
    exact exec_targetWrite n s
  | false =>
    rw [if_neg Bool.false_ne_true, if_neg fun h => Bool.false_ne_true h.1, exec_writeTarget, targetOrDefault_default]
    rfl

/-- Settles O60: each write is a target write of an exact integer, the trims' under a condition. -/
theorem hostTargetUpdatesStoreBandOrDefault : Obligations.HostTargetUpdatesStoreBandOrDefault := by
  refine ⟨fun hp p v t delta => ⟨rfl, rfl, rfl⟩, fun hp v t delta s => ⟨?_, ?_, ?_⟩, rfl, rfl⟩
  · exact exec_trimWrite (f32Lt hp.trimLow v) (t.toInt - 1) s
  · exact exec_trimWrite (f32Lt v hp.trimHigh) (t.toInt + 1) s
  · exact exec_targetWrite (t.toInt + delta) s

/-- In BCPID-1 a small number is stored when it is 2 to 15 (R160). -/
theorem targetOrDefault_bcpid1 {p : Params} (hp : p = Config.bcpid1) {n : Nat} (hn : n < 2 ^ 31) :
    targetOrDefault p (BitVec.ofNat 32 n) = if 2 ≤ n ∧ n ≤ 15 then BitVec.ofNat 32 n else 10#32 := by
  rw [hp, ← BitVec.ofInt_natCast, targetOrDefault_ofInt _ (by omega)]
  have hmin : Config.bcpid1.targetMin.toInt = 2 := by decide
  have hmax : Config.bcpid1.targetMax.toInt = 15 := by decide
  have hband : (2 : Int) ≤ n ∧ (n : Int) ≤ 15 ↔ 2 ≤ n ∧ n ≤ 15 := by omega
  simp only [targetOfInt, hmin, hmax, hband]
  rfl

/-- Settles O58: the target selector is a target write of the digit sum, which is at most 18. -/
theorem channelSetsAndFallsBack : Obligations.ChannelSetsAndFallsBack := by
  refine ⟨by decide, fun hp d0 d1 c h1 h2 h3 h4 => ?_, fun hp d0 d1 s hs => ⟨_, rfl, ?_⟩⟩
  · simp only [chanSet, h1, h2, h3, h4, if_false, chanInvalid]
  · rw [exec_writeTarget, targetOrDefault_bcpid1 hs (by omega)]
    rfl

end Sys2Proof.Machine
end

section
/-! PROOFS. The sampler chapter's statements (40_sampler.md): Scale's sign, order and zero for every accepted parameter set
and its values in the reference configuration (R100, R103), what SAMPLE writes (R101, R102, R104) and what SAMPLE and ADCRAW
leave undisturbed (R101, R102, R121). First Scale as three operations that keep the order of non-negative values; then the
conversion as an operation that depends on no register; last the distance of neighbouring counts in the reference
configuration, against the error of rounding. -/

namespace Sys2Proof.Machine

variable {num num' den : Nat}

/-! Non-negative values in order, and the operations that keep it (R8, R100) -/

/-- x and y are non-negative, and x is not above y. -/
structure NonNegLe (x y : F32) : Prop where
  left : NonNegative x
  right : NonNegative y
  mag_le : f32Mag x ≤ f32Mag y

/-- A finite value greater than +0.0. -/
structure PositiveFinite (c : F32) : Prop where
  sign : f32Sign c = false
  pos : 0 < f32Mag c
  finite : f32IsFinite c = true

theorem positiveFinite_of_f32Positive {c : F32} (h : f32Positive c = true) : PositiveFinite c := by
  have hfin := (f32Positive_iff c).1 h
  obtain ⟨hs, hpos, -⟩ := (positive_iff c).1 hfin
  exact ⟨hs, hpos, hfin.1⟩

/-- A count of at least 1 is a positive binary32 (R11). -/
theorem positiveFinite_i2f {n : Nat} (h1 : 1 ≤ n) (hn : n ≤ 2 ^ 24) : PositiveFinite (i2f n) := by
  obtain ⟨hfin, -, hsign⟩ := i2f_exact (n := (n : Int)) (by omega)
  obtain ⟨-, hone⟩ := i2f_nat_mono h1
  refine ⟨hsign.trans (decide_eq_false (by omega)), lt_of_lt_of_le ?_ hone, (f32IsFinite_iff _).2 hfin⟩
  decide

theorem nonNegLe_i2f {a b : Nat} (h : a ≤ b) : NonNegLe (i2f a) (i2f b) := by
  obtain ⟨ha, hle⟩ := i2f_nat_mono h
  obtain ⟨hb, -⟩ := i2f_nat_mono (le_refl b)
  exact ⟨ha, hb, hle⟩

theorem NonNegLe.mul {x y c : F32} (h : NonNegLe x y) (hc : PositiveFinite c) :
    NonNegLe (f32Mul x c) (f32Mul y c) := by
  have hfin := (f32IsFinite_iff c).1 hc.finite
  obtain ⟨hx, hle⟩ := f32Mul_mono h.left h.right hc.sign hc.pos hfin h.mag_le
  obtain ⟨hy, -⟩ := f32Mul_mono h.right h.right hc.sign hc.pos hfin (le_refl _)
  exact ⟨hx, hy, hle⟩

theorem NonNegLe.div {x y c : F32} (h : NonNegLe x y) (hc : PositiveFinite c) :
    NonNegLe (f32Div x c) (f32Div y c) := by
  have hfin := (f32IsFinite_iff c).1 hc.finite
  obtain ⟨hx, hle⟩ := f32Div_mono h.left h.right hc.sign hc.pos hfin h.mag_le
  obtain ⟨hy, -⟩ := f32Div_mono h.right h.right hc.sign hc.pos hfin (le_refl _)
  exact ⟨hx, hy, hle⟩

/-- A non-negative value is no NaN. -/
theorem NonNegative.not_nan {x : F32} (h : NonNegative x) : f32IsNaN x = false := by
  obtain ⟨-, hle⟩ := h
  rw [f32IsNaN]
  exact decide_eq_false (not_lt.2 hle)

theorem PositiveFinite.not_zero {c : F32} (hc : PositiveFinite c) : f32IsZero c = false := by
  rw [f32IsZero]
  exact decide_eq_false hc.pos.ne'

theorem f32Mul_zero_left {c : F32} (hc : PositiveFinite c) : f32Mul 0x00000000#32 c = 0x00000000#32 := by
  rw [f32Mul_of_finite (by decide) hc.finite, hc.sign, show f32Units 0x00000000#32 = 0 by decide, Nat.zero_mul,
    f32Round_zero _ oneUnits_pos]
  rfl

theorem f32Div_zero_left {c : F32} (hc : PositiveFinite c) : f32Div 0x00000000#32 c = 0x00000000#32 := by
  rw [f32Div_of_finite (by decide) hc.finite hc.not_zero, hc.sign, show f32Units 0x00000000#32 = 0 by decide, Nat.zero_mul,
    f32Round_zero _ (f32Units_pos hc.not_zero)]
  rfl

/-! Scale for an accepted parameter set (R100, R103) -/

/-- The factor and the divisors of Scale are positive (R4). -/
structure ScaleParamsOk (p : Params) : Prop where
  vRef : PositiveFinite p.vRef
  rawMax : PositiveFinite (i2f p.rawMax.toNat)
  divK : PositiveFinite p.divK

theorem scaleParamsOk_of_paramsWellFormed {p : Params} (h : paramsWellFormed p = true) : ScaleParamsOk p := by
  simp only [paramsWellFormed, Bool.and_eq_true, decide_eq_true_eq] at h
  obtain ⟨⟨⟨⟨⟨⟨⟨⟨⟨hraw, -⟩, -⟩, -⟩, -⟩, -⟩, -⟩, -⟩, hvref⟩, hdivk⟩ := h
  have hmax : p.rawMax.toNat ≤ 2 ^ 24 := le_trans p.rawMax.isLt.le (by decide)
  exact ⟨positiveFinite_of_f32Positive hvref, positiveFinite_i2f hraw hmax, positiveFinite_of_f32Positive hdivk⟩

theorem scale_nonNegLe {p : Params} (hp : ScaleParamsOk p) {r r' : Half} (h : r.toNat ≤ r'.toNat) :
    NonNegLe (scale p r) (scale p r') :=
  (((nonNegLe_i2f h).mul hp.vRef).div hp.rawMax).div hp.divK

theorem scale_zero {p : Params} (hp : ScaleParamsOk p) : scale p 0#16 = 0x00000000#32 := by
  have h0 : i2f ((0#16 : Half).toNat : Int) = 0x00000000#32 := by decide
  simp only [scale, h0, f32Mul_zero_left hp.vRef, f32Div_zero_left hp.rawMax, f32Div_zero_left hp.divK]

theorem f32Le_scale {p : Params} (hp : ScaleParamsOk p) {r r' : Half} (h : r.toNat ≤ r'.toNat) :
    f32Le (scale p r) (scale p r') = true := by
  obtain ⟨hl, hr, hle⟩ := scale_nonNegLe hp h
  exact (hl.le_iff hr).2 hle

/-- Settles O19: each of Scale's three operations keeps the order of non-negative values, for every count. -/
theorem scaleIsMonotone : Obligations.ScaleIsMonotone := by
  intro p hp
  have hok := scaleParamsOk_of_paramsWellFormed hp
  refine ⟨scale_zero hok, fun r _ => ?_, fun r r' h _ => f32Le_scale hok h⟩
  have hr := (scale_nonNegLe hok (le_refl r.toNat)).left
  exact ⟨hr.1, hr.not_nan⟩

/-! What SAMPLE does with one conversion (R101, R102) -/

theorem exec_sample (ign : BitVec 28) (s : State) : exec (.sample ign) s =
    .next (withArch (adcTaken s) { s.arch with sampv := scale s.params (adcResult s), adcraw := adcResult s }) := rfl

theorem exec_rdSampv (d : Word) (s : State) : exec (.rdSampv d) s = .next (respond s s.arch.sampv) := rfl

/-- Settles O17: SAMPLE's next state, with Scale at 0 for every accepted set and at two counts of the reference one. -/
theorem sampleWritesSampvAndAdcraw : Obligations.SampleWritesSampvAndAdcraw := by
  refine ⟨exec_sample, fun x d s t h => ?_, fun p hp => scale_zero (scaleParamsOk_of_paramsWellFormed hp),
    by decide, by decide⟩
  have hsampv : t.arch.sampv = scale s.params (adcResult s) := by
    rw [exec_sample] at h
    cases h
    rw [withArch_arch]
  rw [exec_rdSampv, hsampv]
  rfl

/-! ADCRAW and SAMPV as inputs of the operations (R101, R102) -/

/-- s with another value in ADCRAW. -/
def withAdcraw (s : State) (c : Half) : State := withArch s { s.arch with adcraw := c }

/-- s with another value in SAMPV. -/
def withSampv (s : State) (v : F32) : State := withArch s { s.arch with sampv := v }

theorem withSampv_arch (s : State) (v : F32) : (withSampv s v).arch = { s.arch with sampv := v } := rfl

theorem withSampv_params (s : State) (v : F32) : (withSampv s v).params = s.params := rfl

theorem sampleValue_withSampv (s : State) (v : F32) : sampleValue (withSampv s v) = sampleValue s := rfl

/-- A conversion's answer is taken from the ADC port, whatever the registers hold. -/
theorem adcTaken_withArch (s : State) (r : Arch) : adcTaken (withArch s r) = withArch (adcTaken s) r := by
  unfold adcTaken
  rw [withArch_adcIn]
  split <;> rfl

/-- Sample() overwrites ADCRAW. -/
theorem sampled_withAdcraw (s : State) (c : Half) : sampled (withAdcraw s c) = sampled s := by
  rw [sampled, withAdcraw, adcTaken_withArch]
  rfl

theorem sampled_withSampv (s : State) (v : F32) : sampled (withSampv s v) = withSampv (sampled s) v := by
  rw [sampled, withSampv, adcTaken_withArch]
  rfl

theorem pidCandidate_withSampv (p : Params) (r : Arch) (v m : F32) :
    pidCandidate p { r with sampv := v } m = pidCandidate p r m := (rfl)

/-- PidCore neither reads nor writes SAMPV. -/
theorem pidCore_withSampv (p : Params) (r : Arch) (v m : F32) :
    pidCore p { r with sampv := v } m = { pidCore p r m with sampv := v } := by
  rw [pidCore, pidCandidate_withSampv, pidCore]
  rfl

/-- A TICK depends on ADCRAW not at all: its conversion overwrites it. -/
theorem tickOperation_withAdcraw (s : State) (c : Half) : tickOperation (withAdcraw s c) = tickOperation s := by
  rw [tickOperation, sampled_withAdcraw]
  rfl

/-- A TICK neither reads nor writes SAMPV. -/
theorem tickOperation_withSampv (s : State) (v : F32) :
    tickOperation (withSampv s v) = withSampv (tickOperation s) v := by
  rw [tickOperation, sampled_withSampv, withSampv_arch, withSampv_params, sampleValue_withSampv, pidCore_withSampv,
    tickOperation, withSampv, withSampv, withArch_withArch, withArch_withArch, withArch_arch]

theorem exec_tick (ign : BitVec 28) (s : State) : exec (.tick ign) s = .next (tickOperation s) := rfl

/-- SAMPLE with x as the ADC's next answer. -/
theorem exec_sample_cons (ign : BitVec 28) (s : State) (x : Half) (xs : List Half) :
    exec (.sample ign) { s with adcIn := x :: xs } = .next (withSampv
      (withAdcraw { s with adcIn := xs } (rawInRange s.params.rawMax x)) (scale s.params (rawInRange s.params.rawMax x))) :=
  rfl

/-- Settles O21: of what SAMPLE leaves, TICK overwrites ADCRAW and does not look at SAMPV. -/
theorem sampleDoesNotDisturbTick : Obligations.SampleDoesNotDisturbTick := by
  intro s x y rest i i'
  refine ⟨_, _, _, exec_sample_cons i s x (y :: rest), exec_tick i' _, exec_tick i' _, ?_⟩
  rw [tickOperation_withSampv, tickOperation_withAdcraw, withSampv, withArch]

theorem withAdcraw_self (s : State) : withAdcraw s s.arch.adcraw = s := rfl

/-- An instruction that overwrites ADCRAW with its own conversion ends in one state, whatever ADCRAW held. -/
theorem exec_withAdcraw_of_overwritten {i : Instr} {s t : State} (c : Half) (h : exec i s = .next t)
    (hc : exec i (withAdcraw s c) = .next t) : ∃ (t' : State) (c' : Half), exec i s = .next t' ∧
    exec i (withAdcraw s c) = .next (withAdcraw t' c') :=
  ⟨t, t.arch.adcraw, h, by rw [withAdcraw_self, hc]⟩

theorem exec_sample_withAdcraw (ign : BitVec 28) (s : State) (c : Half) :
    exec (.sample ign) (withAdcraw s c) = .next (withSampv (sampled s) (sampleValue s)) := by
  rw [exec, execSample, sampled_withAdcraw]
  rfl

theorem exec_tick_withAdcraw (ign : BitVec 28) (s : State) (c : Half) :
    exec (.tick ign) (withAdcraw s c) = .next (tickOperation s) := by
  rw [exec_tick, tickOperation_withAdcraw]

/-- Settles O22: SAMPLE and TICK overwrite ADCRAW and end in the same state; the others but RD.ADCRAW leave it as it was. -/
theorem adcrawInfluencesNothing : Obligations.AdcrawInfluencesNothing := by
  intro i s r hi
  cases i with
  | rdAdcraw d => exact absurd rfl (hi d)
  | sample ign => exact exec_withAdcraw_of_overwritten r rfl (exec_sample_withAdcraw ign s r)
  | tick ign => exact exec_withAdcraw_of_overwritten r rfl (exec_tick_withAdcraw ign s r)
  | _ => exact ⟨_, r, rfl, rfl⟩

/-! How far rounding moves a value (R8) -/

/-- A rounded value is off by at most a 2^24th of the exact one and half a unit. -/
theorem roundSteps_error (hd : 0 < den) :
    2 ^ 24 * (den * unitsOfMag (roundSteps num den)) ≤ 2 ^ 24 * num + (num + 2 ^ 23 * den) ∧
    2 ^ 24 * num ≤ 2 ^ 24 * (den * unitsOfMag (roundSteps num den)) + (num + 2 ^ 23 * den) := by
  obtain ⟨-, hk⟩ := roundShift_bounds num den
  rw [unitsOfMag_roundSteps hd]
  have hbounds := roundEven_bounds (num := num) (den := den * 2 ^ roundShift num den) (Nat.mul_pos hd (by positivity))
  generalize roundShift num den = k at hk hbounds ⊢
  have hstep : 2 ^ 23 * (den * 2 ^ k) ≤ num + 2 ^ 23 * den := by
    obtain rfl | hk := hk
    · omega
    · rw [Nat.le_div_iff_mul_le hd, pow_add, mul_assoc, mul_comm (2 ^ k)] at hk
      exact le_trans hk (Nat.le_add_right _ _)
  rw [mul_comm (roundEven _ _), ← mul_assoc den]
  omega

/-- Values far enough apart are rounded to different patterns. -/
theorem roundSteps_lt_of_gap (hd : 0 < den) (h : 2 ^ 24 * num + num + num' + 2 ^ 24 * den < 2 ^ 24 * num') :
    roundSteps num den < roundSteps num' den := by
  obtain ⟨hhi, -⟩ := roundSteps_error (num := num) hd
  obtain ⟨-, hlo⟩ := roundSteps_error (num := num') hd
  by_contra hge
  have := Nat.mul_le_mul_left den (unitsOfMag_le_iff.2 (not_lt.1 hge))
  omega

/-- Below the midpoint of overflow no pattern reaches infinity's. -/
theorem roundSteps_lt_infMag (hd : 0 < den) (h : num < overflowUnits * den) : roundSteps num den < infMag :=
  not_le.1 fun hinf => absurd ((infMag_le_roundSteps_iff hd).1 hinf) (not_le.2 h)

theorem roundMag_eq_roundSteps (hd : 0 < den) (h : num < overflowUnits * den) : roundMag num den = roundSteps num den := by
  rw [roundMag_eq_min]
  exact min_eq_left (roundSteps_lt_infMag hd h).le

theorem f32IsFinite_round (s : Bool) (hd : 0 < den) (h : num < overflowUnits * den) :
    f32IsFinite (f32Round s num den) = true := by
  rw [f32IsFinite_iff, f32Mag_round, roundMag_eq_roundSteps hd h]
  exact roundSteps_lt_infMag hd h

/-- Rounding depends on the quotient alone. -/
theorem roundMag_congr {a b c d : Nat} (hb : 0 < b) (hd : 0 < d) (h : a * d = c * b) : roundMag a b = roundMag c d :=
  le_antisymm (roundMag_mono hb hd h.le) (roundMag_mono hd hb h.ge)

theorem f32Round_congr (s : Bool) {a b c d : Nat} (hb : 0 < b) (hd : 0 < d) (h : a * d = c * b) :
    f32Round s a b = f32Round s c d := by
  rw [f32Round, roundMag_congr hb hd h, f32Round]

/-! Scale in the reference configuration (R3, R103) -/

/-- i2f is exact on the natural numbers up to 2^24 (R11). -/
theorem i2f_nat_exact {n : Nat} (hn : n ≤ 2 ^ 24) :
    f32IsFinite (i2f n) = true ∧ f32Units (i2f n) = n * oneUnits ∧ f32Sign (i2f n) = false := by
  obtain ⟨hfin, hunits, hsign⟩ := i2f_exact (n := (n : Int)) (by omega)
  exact ⟨(f32IsFinite_iff _).2 hfin, hunits, hsign.trans (decide_eq_false (by omega))⟩

theorem f32Mul_i2f {a b : Nat} (ha : a ≤ 2 ^ 24) (hb : b ≤ 2 ^ 24) : f32Mul (i2f a) (i2f b) = i2f (a * b : Nat) := by
  obtain ⟨hfa, hua, hsa⟩ := i2f_nat_exact ha
  obtain ⟨hfb, hub, hsb⟩ := i2f_nat_exact hb
  rw [f32Mul_of_finite hfa hfb, hua, hub, hsa, hsb, i2f, decide_eq_false (by omega), Int.natAbs_natCast]
  exact f32Round_congr false oneUnits_pos Nat.one_pos (by ring)

theorem f32Div_i2f {a b : Nat} (ha : a ≤ 2 ^ 24) (hb0 : 0 < b) (hb : b ≤ 2 ^ 24) :
    f32Div (i2f a) (i2f b) = f32Round false (a * oneUnits) b := by
  obtain ⟨hfa, hua, hsa⟩ := i2f_nat_exact ha
  obtain ⟨hfb, hub, hsb⟩ := i2f_nat_exact hb
  rw [f32Div_of_finite hfa hfb (positiveFinite_i2f hb0 hb).not_zero, hua, hub, hsa, hsb]
  exact f32Round_congr false (Nat.mul_pos hb0 oneUnits_pos) hb0 (by ring)

/-- Dividing by DIV_K = 0.25 multiplies by 4. -/
theorem f32Div_divK {x : F32} (hx : f32IsFinite x = true) (hs : f32Sign x = false) :
    f32Div x Config.bcpid1.divK = f32Round false (4 * f32Units x) 1 := by
  have hunits : f32Units Config.bcpid1.divK = 2 ^ 147 := by decide
  rw [f32Div_of_finite hx (by decide) (by decide), hunits, hs]
  refine f32Round_congr false (by positivity) Nat.one_pos ?_
  unfold oneUnits
  ring

/-- The units of n * 5 / 1023, the value before the division by DIV_K, as rounded. -/
def referenceUnits (n : Nat) : Nat := unitsOfMag (roundSteps (n * 5 * oneUnits) 1023)

/-- referenceUnits is within the rounding error of n * 5 / 1023 units of 1.0. -/
theorem referenceUnits_error (n : Nat) :
    2 ^ 24 * (1023 * referenceUnits n) ≤ 2 ^ 24 * (n * 5 * oneUnits) + (n * 5 * oneUnits + 2 ^ 23 * 1023) ∧
    2 ^ 24 * (n * 5 * oneUnits) ≤ 2 ^ 24 * (1023 * referenceUnits n) + (n * 5 * oneUnits + 2 ^ 23 * 1023) :=
  roundSteps_error (by decide)

theorem scale_bcpid1 {n : Nat} (hn : n ≤ 1023) :
    scale Config.bcpid1 (BitVec.ofNat 16 n) = f32Round false (4 * referenceUnits n) 1 := by
  have hraw : (BitVec.ofNat 16 n).toNat = n := by rw [BitVec.toNat_ofNat]; omega
  have hvref : Config.bcpid1.vRef = i2f (5 : Nat) := by decide
  have hmax : Config.bcpid1.rawMax.toNat = 1023 := by decide
  have hlt : n * 5 * oneUnits < overflowUnits * 1023 := by
    unfold overflowUnits oneUnits
    omega
  have hfin := f32IsFinite_round false (by decide) hlt
  rw [scale, hraw, hvref, hmax, f32Mul_i2f (by omega) (by decide), f32Div_i2f (by omega) (by decide) (by decide),
    f32Div_divK hfin (f32Sign_round _ _ _), f32Units, f32Mag_round,
    roundMag_eq_roundSteps (by decide) hlt, referenceUnits]

theorem f32Mag_scale_bcpid1 {n : Nat} (hn : n ≤ 1023) :
    f32Mag (scale Config.bcpid1 (BitVec.ofNat 16 n)) = roundSteps (4 * referenceUnits n) 1 := by
  rw [scale_bcpid1 hn, f32Mag_round]
  refine roundMag_eq_roundSteps Nat.one_pos ?_
  obtain ⟨hhi, -⟩ := referenceUnits_error n
  unfold oneUnits at hhi
  unfold overflowUnits
  omega

/-- One count is a gap of 5 / 1023, and the rounding errors of two counts up to 1023 are far smaller. -/
theorem f32Mag_scale_bcpid1_lt {n : Nat} (hn : n < 1023) :
    f32Mag (scale Config.bcpid1 (BitVec.ofNat 16 n)) < f32Mag (scale Config.bcpid1 (BitVec.ofNat 16 (n + 1))) := by
  obtain ⟨hhi, -⟩ := referenceUnits_error n
  obtain ⟨hhi', hlo'⟩ := referenceUnits_error (n + 1)
  unfold oneUnits at hhi hhi' hlo'
  rw [f32Mag_scale_bcpid1 hn.le, f32Mag_scale_bcpid1 (n := n + 1) hn]
  refine roundSteps_lt_of_gap Nat.one_pos ?_
  omega

theorem NonNegative.lt_iff {x y : F32} (hx : NonNegative x) (hy : NonNegative y) :
    f32Lt x y = true ↔ f32Mag x < f32Mag y := by
  rw [f32Lt, Bool.and_eq_true, Bool.not_eq_true', ← Bool.not_eq_true, hx.le_iff hy, hy.le_iff hx]
  omega

/-- A value between the voltages of neighbouring counts is no count's voltage. -/
theorem scale_ne_of_between {p : Params} (hp : ScaleParamsOk p) {r r' : Half} {v : F32} (hnext : r'.toNat ≤ r.toNat + 1)
    (hlo : f32Lt (scale p r) v = true) (hhi : f32Lt v (scale p r') = true) (c : Half) : scale p c ≠ v := by
  rintro rfl
  simp only [f32Lt, Bool.and_eq_true, Bool.not_eq_true'] at hlo hhi
  obtain hc | hc : c.toNat ≤ r.toNat ∨ r'.toNat ≤ c.toNat := by omega
  · exact absurd (f32Le_scale hp hc) (by simp [hlo])
  · exact absurd (f32Le_scale hp hc) (by simp [hhi])

/-- Settles O20: neighbouring counts are farther apart than rounding can bring together, and 8.0 and 10.0 lie between
neighbouring counts. -/
theorem scaleReferenceConfiguration : Obligations.ScaleReferenceConfiguration := by
  have hok : ScaleParamsOk Config.bcpid1 := scaleParamsOk_of_paramsWellFormed (by decide)
  have hnonneg (r : Half) : NonNegative (scale Config.bcpid1 r) := (scale_nonNegLe hok (le_refl r.toNat)).left
  refine ⟨by decide, fun n => ((hnonneg _).lt_iff (hnonneg _)).2 (f32Mag_scale_bcpid1_lt n.isLt), fun n => ⟨?_, ?_⟩⟩
  · exact scale_ne_of_between hok (r := 409#16) (r' := 410#16) (by decide) (by decide) (by decide) _
  · exact scale_ne_of_between hok (r := 511#16) (r' := 512#16) (by decide) (by decide) (by decide) _

end Sys2Proof.Machine
end

section
/-! PROOFS. The PID chapter's statements (41_pid.md): TICK and PidCore line by line (R120, R123, R129, R130, R135), the
re-centering of a duty out of band (R126), the integral of a saturating tick (R127) and the worked scenario of
95_test_vectors.md W1. First PidCore's registers by the pseudocode's lines, and TICK as PidCore after one conversion; then
the re-centering by where the candidate lies; last the scenario, one tick at a time. -/

namespace Sys2Proof.Machine

/-! PidCore by the pseudocode's lines, and TICK by PidCore (R120, R135) -/

/-- The pseudocode's count modulo 2^32 is the addition of 32-bit words (R130). -/
theorem word_add_one (c : Word) : c + 1#32 = BitVec.ofNat 32 ((c.toNat + 1) % 2 ^ 32) := by
  refine BitVec.eq_of_toNat_eq ?_
  simp

/-- PidCore's last write is TICKCNT plus 1 modulo 2^32 (R130). -/
theorem pidCore_eq_with_tickcnt (p : Params) (r : Arch) (m : F32) :
    pidCore p r m = { pidCore p r m with tickcnt := BitVec.ofNat 32 ((r.tickcnt.toNat + 1) % 2 ^ 32) } := by
  rw [← word_add_one]
  rfl

theorem pidCore_integ (p : Params) (r : Arch) (m : F32) : (pidCore p r m).integ =
    if saturates p (pidCandidate p r m) && p.integResetOnSat then 0x00000000#32 else pidInteg p r (pidError r m) := (rfl)

/-- The candidate does not depend on ADCRAW (R101, R125). -/
theorem pidCandidate_withAdcraw (p : Params) (r : Arch) (c : Half) (m : F32) :
    pidCandidate p { r with adcraw := c } m = pidCandidate p r m := (rfl)

/-- TICK takes one answer of the ADC and changes nothing beside the registers PidCore gives (R120). -/
theorem tickOperation_eq (s : State) : tickOperation s =
    withArch (adcTaken s)
      (pidCore s.params { s.arch with adcraw := adcResult s } (scale s.params (adcResult s))) := by
  rw [tickOperation, sampled_arch, sampled, withArch_withArch, sampleValue]

/-- The candidate duty of the TICK that starts in s (R125). -/
def tickCandidate (s : State) : F32 := pidCandidate s.params s.arch (scale s.params (adcResult s))

theorem tickOperation_duty (s : State) : (tickOperation s).arch.duty = recenter s.params (tickCandidate s) := by
  rw [tickOperation_arch, pidCore_duty, pidCandidate_withAdcraw, sampleValue, tickCandidate]

theorem tickOperation_integ (s : State) : (tickOperation s).arch.integ =
    if saturates s.params (tickCandidate s) && s.params.integResetOnSat then 0x00000000#32
    else f32Mul (f32Add s.arch.integ (pidError s.arch (scale s.params (adcResult s)))) s.params.tickInterval := by
  rw [tickOperation_arch, pidCore_integ, pidCandidate_withAdcraw, sampleValue, tickCandidate]
  rfl

/-! Re-centering, by where the candidate lies (R126) -/

theorem saturates_eq_false {p : Params} {d0 : F32} (h : inband d0 p.dutyMin p.dutyMax = true) :
    saturates p d0 = false := by rw [saturates, h, Bool.not_true]

theorem saturates_eq_true {p : Params} {d0 : F32} (h : inband d0 p.dutyMin p.dutyMax = false) :
    saturates p d0 = true := by rw [saturates, h, Bool.not_false]

theorem recenter_of_inband {p : Params} {d0 : F32} (h : inband d0 p.dutyMin p.dutyMax = true) : recenter p d0 = d0 := by
  rw [recenter, saturates_eq_false h, if_neg Bool.false_ne_true]

theorem recenter_of_outOfBand {p : Params} {d0 : F32} (h : inband d0 p.dutyMin p.dutyMax = false) :
    recenter p d0 = p.dutyReset := by
  rw [recenter, saturates_eq_true h, if_pos rfl]

/-- A NaN is in no band (R10). -/
theorem inband_of_nan {v : F32} (lo hi : F32) (h : f32IsNaN v = true) : inband v lo hi = false := by
  simp [inband, f32Le, h]

/-- Both edges of an accepted duty band are in it: it is not empty, and neither edge is a NaN (R4). -/
theorem dutyEdges_inband {p : Params} (h : dutyBandOk p = true) :
    inband p.dutyMin p.dutyMin p.dutyMax = true ∧ inband p.dutyMax p.dutyMin p.dutyMax = true := by
  obtain ⟨hlo, hhi, -⟩ := (dutyBandOk_iff p).1 h
  obtain ⟨hmin, -, -⟩ := (f32Le_iff _ _).1 hlo
  obtain ⟨-, hmax, -⟩ := (f32Le_iff _ _).1 hhi
  have hle := f32Le_trans hlo hhi
  exact ⟨(inband_iff _ _ _).2 ⟨f32Le_refl hmin, hle⟩, (inband_iff _ _ _).2 ⟨hle, f32Le_refl hmax⟩⟩

/-! The statements -/

/-- Settles O24: the new duty is the re-centered candidate, and a NaN is out of every band. -/
theorem outOfBandDutyIsRecentered : Obligations.OutOfBandDutyIsRecentered := by
  refine ⟨fun x s => ⟨_, exec_tick x s, ?_⟩, fun p hp => ?_, fun p d0 => recenter_of_outOfBand, rfl, rfl⟩
  · rw [tickOperation_duty]
    exact ⟨recenter_of_inband, recenter_of_outOfBand, fun hn => recenter_of_outOfBand (inband_of_nan _ _ hn)⟩
  · obtain ⟨hmin, hmax⟩ := dutyEdges_inband (bandsOk_of_paramsWellFormed hp).duty
    exact ⟨recenter_of_inband hmin, recenter_of_inband hmax⟩

/-- Settles O27: PidCore is the pseudocode with its lines named, and the duty it leaves is in band and so has a PwmValue. -/
theorem pidCoreIsTickWithoutTheSampler : Obligations.PidCoreIsTickWithoutTheSampler := by
  refine ⟨fun x s => ⟨_, exec_tick x s, ?_⟩, pidCore_eq_with_tickcnt, fun p r m hp => ?_⟩
  · rw [tickOperation_eq, withArch_arch]
  · have hband := (bandsOk_of_paramsWellFormed hp).duty
    have hduty : inband (pidCore p r m).duty p.dutyMin p.dutyMax = true := by
      rw [pidCore_duty]
      exact recenter_inband _ hband
    rw [pidCore_pwm]
    exact pwmValue_of_inband hband hduty

/-- Settles O23: TICK is PidCore after one conversion, and PidCore's registers are O27's. -/
theorem tickFollowsThePseudocode : Obligations.TickFollowsThePseudocode := by
  intro x s
  obtain ⟨-, hcore, -⟩ := pidCoreIsTickWithoutTheSampler
  rw [exec_tick, tickOperation_eq, hcore]
  rfl

/-- Settles O25: INTEG is cleared exactly when the candidate saturates and the parameter is set. -/
theorem saturationAndIntegral : Obligations.SaturationAndIntegral := by
  refine ⟨fun x s => ⟨_, exec_tick x s, ?_⟩, rfl⟩
  rw [tickOperation_integ]
  refine ⟨fun hreset hd => ?_, fun h => if_neg ?_⟩
  · rw [tickCandidate, saturates_eq_true hd, hreset]
    rfl
  · obtain hreset | hd := h
    · rw [hreset, Bool.and_false]
      exact Bool.false_ne_true
    · rw [tickCandidate, saturates_eq_false hd, Bool.false_and]
      exact Bool.false_ne_true

/-! The scenario (95_test_vectors.md W1) -/

/-- The reset registers of BCPID-1 with what n ticks wrote: a row of W1's table. -/
def scenarioRow (n : Word) (m e der ig d : F32) (w : Half) : Arch :=
  { State.reset.arch with
    meas := m
    err := e
    deriv := der
    integ := ig
    duty := d
    pwm := w
    perr := e
    tickcnt := n }

/-- W1's first row, after 8.0 V. -/
def scenarioRow1 : Arch := scenarioRow 1#32 0x41000000#32 0xC0000000#32 0xC3480000#32 0xBCA3D70A#32 0x3F1FD8AE#32 159#16

/-- W1's second row, after 8.5 V. -/
def scenarioRow2 : Arch := scenarioRow 2#32 0x41080000#32 0xBFC00000#32 0x42480000#32 0xBC79096B#32 0x3F1F6988#32 159#16

/-- W1's third row, after 9.2 V. -/
def scenarioRow3 : Arch := scenarioRow 3#32 0x41133333#32 0xBF4CCCD0#32 0x428BFFFE#32 0xBC058FF9#32 0x3F1E1252#32 157#16

/-- W1's fourth row, after 9.8 V. -/
def scenarioRow4 : Arch := scenarioRow 4#32 0x411CCCCD#32 0xBE4CCCC0#32 0x4270000A#32 0xBB086A14#32 0x3F1CA60C#32 156#16

/-- W1's fifth row, after 10.0 V. -/
def scenarioRow5 : Arch := scenarioRow 5#32 0x41200000#32 0x00000000#32 0x419FFFF6#32 0xB7AE9C42#32 0x3F1C2301#32 156#16

theorem pidCore_scenario1 : pidCore Config.bcpid1 State.reset.arch 0x41000000#32 = scenarioRow1 := by decide

theorem pidCore_scenario2 : pidCore Config.bcpid1 scenarioRow1 0x41080000#32 = scenarioRow2 := by decide

theorem pidCore_scenario3 : pidCore Config.bcpid1 scenarioRow2 0x41133333#32 = scenarioRow3 := by decide

theorem pidCore_scenario4 : pidCore Config.bcpid1 scenarioRow3 0x411CCCCD#32 = scenarioRow4 := by decide

theorem pidCore_scenario5 : pidCore Config.bcpid1 scenarioRow4 0x41200000#32 = scenarioRow5 := by decide

/-- Settles O28: each tick takes the registers from one row of W1's table to the next. -/
theorem scenarioDutySequence : Obligations.ScenarioDutySequence := by
  simp only [Obligations.ScenarioDutySequence, pidCore_scenario1, pidCore_scenario2, pidCore_scenario3,
    pidCore_scenario4, pidCore_scenario5]
  exact ⟨rfl, rfl, rfl, rfl, rfl, rfl, rfl⟩

end Sys2Proof.Machine
end

section
/-! PROOFS. The actuator chapter's statements (42_actuator.md): PwmValue's range, order and values (R150, R151, R154) and
the port pwm_cmp (R153). PwmValue's range on [0, 1] is the state chapter's; here the order: a zero duty has PwmValue 0, and
between positive duties the product by PWM_TOP and the rounding to an integer each keep the order. -/

namespace Sys2Proof.Machine

/-! The order of PwmValue on [0, 1] (R151) -/

/-- round_haz gives integers for finite values alone, by sign and magnitude (R11). -/
theorem roundHaz_eq_some_iff {x : F32} {v : Int} : roundHaz x = some v ↔
    f32IsFinite x = true ∧ signed (f32Sign x) ((2 * f32Units x + oneUnits) / (2 * oneUnits)) = v := by
  cases hx : f32IsFinite x
  · simp [roundHaz, hx]
  · simp [roundHaz_of_finite hx]

/-- A zero rounds to the integer 0. -/
theorem roundHaz_of_zero {x : F32} (hx : f32IsZero x = true) : roundHaz x = some 0 := by
  have hunits : f32Units x = 0 := unitsOfMag_eq_zero.2 ((f32IsZero_iff x).1 hx)
  have hround := roundHaz_le (n := 0) (le_of_eq (hunits.trans (Nat.zero_mul _).symm))
  rw [roundHaz_of_finite (finite_of_zero hx), Nat.le_zero.1 hround, signed_zero]

/-- round_haz keeps the order of non-negative values. -/
theorem roundHaz_mono {x y : F32} {v w : Int} (h : NonNegLe x y) (hv : roundHaz x = some v) (hw : roundHaz y = some w) :
    v ≤ w := by
  obtain ⟨-, rfl⟩ := roundHaz_eq_some_iff.1 hv
  obtain ⟨-, rfl⟩ := roundHaz_eq_some_iff.1 hw
  have hunits : f32Units x ≤ f32Units y := unitsOfMag_le_iff.2 h.mag_le
  rw [h.left.1, h.right.1, signed_false, signed_false, Int.ofNat_le]
  exact Nat.div_le_div_right (by omega)

/-- PWM_TOP is a positive integer of at most 16 bits, so i2f holds it as a positive value (R4, R11). -/
theorem positiveFinite_pwmTop {p : Params} (h : paramsWellFormed p = true) : PositiveFinite (i2f p.pwmTop.toNat) := by
  simp only [paramsWellFormed, Bool.and_eq_true, decide_eq_true_eq] at h
  obtain ⟨⟨⟨⟨⟨⟨⟨⟨⟨-, htop⟩, -⟩, -⟩, -⟩, -⟩, -⟩, -⟩, -⟩, -⟩ := h
  exact positiveFinite_i2f htop (le_trans p.pwmTop.isLt.le (by decide))

/-- What lies above the zeros on the binary32 line has no sign. -/
theorem f32Sign_of_f32Key_pos {x : F32} (h : 0 < f32Key x) : f32Sign x = false := by
  rw [f32Key_eq_signed] at h
  cases hs : f32Sign x
  · rfl
  · rw [hs, signed_true] at h
    omega

/-- Values from a nonzero one at or above 0.0 upwards are non-negative and in order. -/
theorem nonNegLe_of_f32Le {f g : F32} (h0 : f32Le 0x00000000#32 f = true) (hz : f32IsZero f = false)
    (h : f32Le f g = true) : NonNegLe f g := by
  have k0 : f32Key 0x00000000#32 = 0 := by decide
  obtain ⟨-, hnf, hlo⟩ := (f32Le_iff _ _).1 h0
  obtain ⟨-, hng, hle⟩ := (f32Le_iff _ _).1 h
  rw [k0] at hlo
  have hkey : f32Key f ≠ 0 := by
    rw [← abs_ne_zero, abs_f32Key, Int.natCast_ne_zero]
    exact of_decide_eq_false hz
  have hpos : 0 < f32Key f := lt_of_le_of_ne hlo hkey.symm
  have hf : NonNegative f := ⟨f32Sign_of_f32Key_pos hpos, not_lt.1 (of_decide_eq_false hnf)⟩
  have hg : NonNegative g := ⟨f32Sign_of_f32Key_pos (lt_of_lt_of_le hpos hle), not_lt.1 (of_decide_eq_false hng)⟩
  exact ⟨hf, hg, (hf.le_iff hg).1 h⟩

/-- On [0, 1] PwmValue is non-decreasing (R151). -/
theorem pwmValue_mono {p : Params} {f g : F32} {v w : Int} (hp : paramsWellFormed p = true)
    (h0 : f32Le 0x00000000#32 f = true) (hfg : f32Le f g = true) (h1 : f32Le g 0x3F800000#32 = true)
    (hv : pwmValue p f = some v) (hw : pwmValue p g = some w) : v ≤ w := by
  have htop := positiveFinite_pwmTop hp
  cases hz : f32IsZero f
  case false => exact roundHaz_mono ((nonNegLe_of_f32Le h0 hz hfg).mul htop) hv hw
  case true =>
    have hprod : f32IsZero (pwmProduct p f) = true :=
      (f32IsZero_iff _).2 (f32Mag_mul_of_zero ((f32IsZero_iff f).1 hz) htop.finite)
    rw [pwmValue, roundHaz_of_zero hprod] at hv
    cases hv
    obtain ⟨n, hn, -⟩ := pwmValue_of_unit_interval p (f32Le_trans h0 hfg) h1
    rw [hw] at hn
    cases hn
    exact Int.natCast_nonneg n

/-! PWM in the reference configuration (R151) -/

theorem pwmValue_bcpid1_dutyMin : pwmValue Config.bcpid1 Config.bcpid1.dutyMin = some 26 := by decide

theorem pwmValue_bcpid1_dutyMax : pwmValue Config.bcpid1 Config.bcpid1.dutyMax = some 242 := by decide

/-- PWM is the PwmValue of a duty in band, so it lies between the PwmValues of the band's edges. -/
theorem pwm_bounds_of_safeState {s : State} {lo hi : Int} (hs : safeState s = true)
    (hlo : pwmValue s.params s.params.dutyMin = some lo) (hhi : pwmValue s.params s.params.dutyMax = some hi) :
    lo ≤ s.arch.pwm.toNat ∧ (s.arch.pwm.toNat : Int) ≤ hi := by
  obtain ⟨hp, -, hwork⟩ := (safeState_iff s).1 hs
  obtain ⟨-, -, -, -, -, hmin, hmax⟩ := (dutyBandOk_iff s.params).1 (bandsOk_of_paramsWellFormed hp).duty
  obtain ⟨hge, hle⟩ := (inband_iff _ _ _).1 hwork.duty
  have hpwm : pwmValue s.params s.arch.duty = some (s.arch.pwm.toNat : Int) := of_decide_eq_true hwork.pwm
  exact ⟨pwmValue_mono hp hmin hge (f32Le_trans hle hmax) hlo hpwm,
    pwmValue_mono hp (f32Le_trans hmin hge) hle hmax hpwm hhi⟩

/-! The statements -/

/-- Settles O29: the product by PWM_TOP and the rounding each keep the order, and PWM in a safe state is the PwmValue of a
duty between the band's edges. -/
theorem pwmValueRangeAndMonotone : Obligations.PwmValueRangeAndMonotone := by
  refine ⟨fun p f _ h0 h1 => pwmValue_of_unit_interval p h0 h1, fun p f g v w => pwmValue_mono,
    pwmValue_bcpid1_dutyMin, pwmValue_bcpid1_dutyMax, by decide, by decide, by decide, by decide, fun s hparams hs => ?_⟩
  have hbounds := pwm_bounds_of_safeState (lo := 26) (hi := 242) hs
    (by rw [hparams, pwmValue_bcpid1_dutyMin]) (by rw [hparams, pwmValue_bcpid1_dutyMax])
  omega

/-- Settles O31: the port is the register PWM, and without reset a step that leaves TICKCNT leaves PWM (O55). -/
theorem pwmPortFollowsPwm : Obligations.PwmPortFollowsPwm := by
  refine ⟨fun _ => rfl, fun s t hstep hne => ?_⟩
  by_cases hlow : (slotOf s).reset = .low
  · obtain ⟨-, -, -, -, -, -, -, hpwm⟩ | ⟨htick, -⟩ := tickcntShowsEveryTick s t hstep hlow
    · exact absurd hpwm hne
    · exact .inl htick
  · exact .inr hlow

/-- Settles O30, by evaluating the product and the rounding of each case. -/
theorem pwmValueWorkedCases : Obligations.PwmValueWorkedCases := by
  refine ⟨?_, ?_, ?_, ?_, ?_, ?_⟩ <;> decide

end Sys2Proof.Machine
end

section
/-! PROOFS. The register-access chapter's statements (43_register_access.md): the writes of the setting registers (R160 to
R163), NOP (R164), the reads (R166 to R179) and the reserved encodings (R180 to R182). First the reserved offsets and codes;
then what a setting write stores, by where the written value lies; last what the reads return, which is the register map's
value (R52), and the registers that TICK and SAMPLE leave for them. -/

namespace Sys2Proof.Machine

/-! Reserved reads (R181) -/

/-- A misaligned offset is odd, or even with A[1] set (R55). -/
theorem misaligned_kinds : ∀ a : Offset, a.extractLsb' 0 2 ≠ 0b00#2 →
    a.getLsbD 0 = true ∨ (a.getLsbD 0 = false ∧ a.getLsbD 1 = true) := by decide

/-- An offset that no readable register has reads as 0 (R52, R181). -/
theorem readOffset_reserved (r : Arch) {a : Offset} (ha : a = 0x00#6 ∨ a = 0x3C#6 ∨ a.extractLsb' 0 2 ≠ 0b00#2) :
    readOffset r a = 0x00000000#32 := by
  obtain rfl | rfl | hmis := ha
  · rfl
  · rfl
  · exact readOffset_misaligned r ((misaligned_kinds a hmis).imp_right And.right)

theorem exec_reservedRead {a : Offset} (d : Word) (s : State)
    (ha : a = 0x00#6 ∨ a = 0x3C#6 ∨ a.extractLsb' 0 2 ≠ 0b00#2) :
    exec (decode (mkTxn false a d)) s = .next (respond s 0x00000000#32) := by
  rw [exec_read, readOffset_reserved s.arch ha]

/-- Settles O10: a reserved offset is none that the register map gives a register. -/
theorem reservedReadsReturnZero : Obligations.ReservedReadsReturnZero :=
  ⟨fun _ _ _ => ⟨rfl, rfl, rfl, rfl⟩, fun _ d s ha => exec_reservedRead d s ha, rfl, rfl, rfl, rfl,
    fun s => exec_reservedRead 0#32 s (.inr (.inr (by decide)))⟩

/-! Reserved writes (R182) -/

/-- The aligned offsets from 0x14 on: the read-only registers and 0x3C. -/
theorem readOnlyOffset_cases : ∀ a : Offset, 0x14 ≤ a.toNat → a.extractLsb' 0 2 = 0b00#2 →
    a = 0x14#6 ∨ a = 0x18#6 ∨ a = 0x1C#6 ∨ a = 0x20#6 ∨ a = 0x24#6 ∨ a = 0x28#6 ∨ a = 0x2C#6 ∨ a = 0x30#6 ∨
    a = 0x34#6 ∨ a = 0x38#6 ∨ a = 0x3C#6 := by decide

theorem exec_misalignedWrite {a : Offset} (d : Word) (s : State) (ha : a.extractLsb' 0 2 ≠ 0b00#2) :
    exec (decodeWrite a d) s = .next s := by
  obtain h0 | ⟨h0, h1⟩ := misaligned_kinds a ha
  · rw [decodeWrite_A0 d h0]
    rfl
  · rw [decodeWrite_A10 d h0 h1]
    rfl

theorem exec_readOnlyWrite {a : Offset} (d : Word) (s : State) (ha : 0x14 ≤ a.toNat) (hal : a.extractLsb' 0 2 = 0b00#2) :
    exec (decodeWrite a d) s = .next s := by
  obtain rfl | rfl | rfl | rfl | rfl | rfl | rfl | rfl | rfl | rfl | rfl := readOnlyOffset_cases a ha hal <;> rfl

/-- The row of a write to a read-only offset fixes W and the whole offset, and no bit of D. -/
theorem rowOf_readOnlyWrite {a : Offset} (d : Word) (ha : 0x14 ≤ a.toNat) (hal : a.extractLsb' 0 2 = 0b00#2) :
    (rowOf (decodeWrite a d)).pattern = mkTxn true a 0#32 ∧ (rowOf (decodeWrite a d)).mask = 0x7F00000000#39 := by
  obtain rfl | rfl | rfl | rfl | rfl | rfl | rfl | rfl | rfl | rfl | rfl := readOnlyOffset_cases a ha hal <;>
    exact ⟨rfl, rfl⟩

/-- Settles O11: an offset from 0x14 on is misaligned or one of the eleven read-only ones. -/
theorem reservedWritesChangeNothing : Obligations.ReservedWritesChangeNothing := by
  refine ⟨fun _ _ _ => ⟨rfl, rfl, rfl, rfl, rfl, rfl, rfl, rfl, rfl, rfl, rfl, rfl, rfl⟩, fun a d s h => ?_,
    fun a d ha hal => ?_, rfl, rfl, fun s => ?_⟩
  · rw [decode_mkTxn]
    by_cases hal : a.extractLsb' 0 2 = 0b00#2
    · exact exec_readOnlyWrite d s (h.resolve_right (not_not.2 hal)) hal
    · exact exec_misalignedWrite d s hal
  · rw [decode_mkTxn]
    exact rowOf_readOnlyWrite d ha hal
  · rw [assemble, decode_mkTxn]
    exact exec_readOnlyWrite (a := 0x28#6) _ s (by decide) (by decide)

/-! Reserved command codes (R180) and NOP (R164) -/

/-- A code from 0x3 on is neither NOP's nor TICK's nor SAMPLE's. -/
theorem reservedCode_ne : ∀ op : BitVec 4, 0x3#4 ≤ op → op ≠ 0x0#4 ∧ op ≠ 0x1#4 ∧ op ≠ 0x2#4 := by decide

theorem exec_reservedCommand {d : Word} (s : State) (hop : 0x3#4 ≤ cmdOp d) :
    exec (decode (mkTxn true 0x00#6 d)) s = .next s := by
  obtain ⟨h0, h1, h2⟩ := reservedCode_ne (cmdOp d) hop
  rw [← mkCmd_fields d, decode_command, if_neg h0, if_neg h1, if_neg h2]
  split_ifs <;> rfl

/-- Settles O12: the rows of the reserved codes are those of the instructions whose encodings the words are. -/
theorem reservedCommandsChangeNothing : Obligations.ReservedCommandsChangeNothing :=
  ⟨fun _ _ _ => ⟨rfl, rfl, rfl⟩, fun _ s hop => exec_reservedCommand s hop,
    fun op x => ⟨congrArg rowOf (decodeInvertsEncode (.rsvCmd3 x) rfl),
      fun hop => congrArg rowOf (decodeInvertsEncode (.rsvCmd4to7 op x) (beq_iff_eq.2 hop)),
      fun hop => congrArg rowOf (decodeInvertsEncode (.rsvCmd8toF op x) hop)⟩,
    fun s => exec_reservedCommand s (by decide)⟩

/-- Settles O13: a CMD word with code 0 is a NOP, whatever its other bits. -/
theorem nopChangesNothing : Obligations.NopChangesNothing :=
  ⟨fun _ _ => rfl, rfl, decode_command 0x0#4 0xFFFFFFF#28, decode_command 0x0#4 0#28⟩

/-! What a target write stores (R160) -/

theorem exec_wrTarget_eq {d v : Word} {s : State} {p : Params} (hp : s.params = p) (hv : targetOrDefault p d = v) :
    exec (.wrTarget d) s = .next (withArch s { s.arch with target := v }) := by
  rw [← hv, ← hp]
  rfl

theorem targetOrDefault_of_inband {p : Params} {d : Word} (h : inbandInt d p.targetMin p.targetMax = true) :
    targetOrDefault p d = d := if_pos ((inbandInt_iff _ _ _).1 h)

/-- Both edges of an accepted target band are in it (R4). -/
theorem targetEdges_inband {p : Params} (h : inbandInt p.targetDefault p.targetMin p.targetMax = true) :
    inbandInt p.targetMin p.targetMin p.targetMax = true ∧ inbandInt p.targetMax p.targetMin p.targetMax = true := by
  obtain ⟨hlo, hhi⟩ := (inbandInt_iff _ _ _).1 h
  have hle := le_trans hlo hhi
  exact ⟨(inbandInt_iff _ _ _).2 ⟨le_rfl, hle⟩, (inbandInt_iff _ _ _).2 ⟨hle, le_rfl⟩⟩

theorem targetOrDefault_of_lt_min {p : Params} {d : Word} (h : d.toInt < p.targetMin.toInt) :
    targetOrDefault p d = p.targetDefault := if_neg fun hband => absurd hband.1 (not_le.2 h)

theorem target_inband_of_settingsInBand {p : Params} {r : Arch} (h : settingsInBand p r = true) :
    inbandInt r.target p.targetMin p.targetMax = true := by
  simp only [settingsInBand, Bool.and_eq_true] at h
  obtain ⟨⟨⟨⟨htarget, -⟩, -⟩, -⟩, -⟩ := h
  exact htarget

/-- Settles O14: a value in band is stored, the edges and the held value among them, and one below the band is not. -/
theorem targetWriteIsBandOrDefault : Obligations.TargetWriteIsBandOrDefault := by
  refine ⟨fun _ => rfl, fun d s => exec_wrTarget_eq rfl rfl, fun s hp => ?_, fun d s hd => ?_, fun d s hs hd => ?_,
    fun s hset => ?_, fun s hs => ⟨?_, ?_⟩⟩
  · obtain ⟨hmin, hmax⟩ := targetEdges_inband (bandsOk_of_paramsWellFormed hp).target
    exact ⟨exec_wrTarget_eq rfl (targetOrDefault_of_inband hmin), exec_wrTarget_eq rfl (targetOrDefault_of_inband hmax)⟩
  · exact exec_wrTarget_eq rfl (targetOrDefault_of_lt_min (by omega))
  · have hmin : Config.bcpid1.targetMin.toInt = 2 := by decide
    exact exec_wrTarget_eq hs (targetOrDefault_of_lt_min (by omega))
  · exact exec_wrTarget_eq rfl (targetOrDefault_of_inband (target_inband_of_settingsInBand hset))
  all_goals
    rw [exec_writeTarget, targetOrDefault_bcpid1 hs (by decide)]
    rfl

/-! What a gain write stores (R161 to R163) -/

theorem exec_wrKp_eq {d : Word} {v : F32} {s : State} {p : Params} (hp : s.params = p)
    (hv : bandOrDefault d p.kpMin p.kpMax p.kpDefault = v) :
    exec (.wrKp d) s = .next (withArch s { s.arch with kp := v }) := by
  rw [← hv, ← hp]
  rfl

theorem exec_wrKi_eq {d : Word} {v : F32} {s : State} {p : Params} (hp : s.params = p)
    (hv : bandOrDefault d p.kiMin p.kiMax p.kiDefault = v) :
    exec (.wrKi d) s = .next (withArch s { s.arch with ki := v }) := by
  rw [← hv, ← hp]
  rfl

theorem exec_wrKd_eq {d : Word} {v : F32} {s : State} {p : Params} (hp : s.params = p)
    (hv : bandOrDefault d p.kdMin p.kdMax p.kdDefault = v) :
    exec (.wrKd d) s = .next (withArch s { s.arch with kd := v }) := by
  rw [← hv, ← hp]
  rfl

/-! What is in a band of finite edges (R4, R10) -/

section
variable {lo hi v : F32}

theorem f32Key_bounds_of_inband (h : inband v lo hi = true) : f32Key lo ≤ f32Key v ∧ f32Key v ≤ f32Key hi := by
  obtain ⟨hlo, hhi⟩ := (inband_iff v lo hi).1 h
  obtain ⟨-, -, hlo⟩ := (f32Le_iff _ _).1 hlo
  obtain ⟨-, -, hhi⟩ := (f32Le_iff _ _).1 hhi
  exact ⟨hlo, hhi⟩

theorem inband_of_inf (hlo : f32IsFinite lo = true) (hhi : f32IsFinite hi = true) (hv : f32IsInf v = true) :
    inband v lo hi = false := by
  refine Bool.eq_false_iff.2 fun hband => ?_
  obtain ⟨hge, hle⟩ := f32Key_bounds_of_inband hband
  have hinf : |f32Key v| = infMag := by rw [abs_f32Key, (f32IsInf_iff v).1 hv]
  have hfin : |f32Key v| < infMag :=
    abs_lt.2 ⟨lt_of_lt_of_le (f32Key_bounds_of_finite hlo).1 hge, lt_of_le_of_lt hle (f32Key_bounds_of_finite hhi).2⟩
  exact absurd hinf hfin.ne

/-- A pattern below 0x00800000 is +0.0 or a positive subnormal, so it is at or above +0.0. -/
theorem zero_le_of_toNat_lt (hv : v.toNat < 0x00800000) : f32Le 0x00000000#32 v = true := by
  have hmag : f32Mag v < infMag := by unfold f32Mag infMag; omega
  have hsign : f32Sign v = false := by
    rw [f32Sign_eq]
    exact decide_eq_false (by omega)
  have hzero : f32Key 0x00000000#32 = 0 := by decide
  rw [f32Le_iff, hzero, f32Key_eq_signed, hsign, signed_false]
  exact ⟨by decide, not_nan_of_finite ((f32IsFinite_iff v).2 hmag), Int.natCast_nonneg _⟩

/-- The pattern one unit above a positive finite value is the next value up, or +∞. -/
theorem f32Key_add_one (hfin : f32IsFinite v = true) (hsign : f32Sign v = false) : f32Key (v + 1#32) = f32Key v + 1 := by
  have hmag := (f32IsFinite_iff v).1 hfin
  have hnat := toNat_eq_sign_mag v
  rw [hsign, if_neg Bool.false_ne_true, Nat.zero_add] at hnat
  have hlt : f32Mag v + 1 < 2 ^ 31 := lt_of_le_of_lt hmag infMag_lt
  have hnext : v + 1#32 = f32Pack false (f32Mag v + 1) := by
    refine BitVec.eq_of_toNat_eq ?_
    rw [toNat_pack hlt, BitVec.toNat_add, hnat, BitVec.toNat_ofNat, if_neg Bool.false_ne_true]
    omega
  rw [f32Key_eq_signed, hnext, f32Sign_pack hlt, f32Mag_pack hlt, f32Key_eq_signed, hsign, signed_false, signed_false]
  exact Nat.cast_succ _

theorem inband_add_one (hfin : f32IsFinite hi = true) (hsign : f32Sign hi = false) : inband (hi + 1#32) lo hi = false := by
  refine Bool.eq_false_iff.2 fun hband => ?_
  obtain ⟨-, hle⟩ := f32Key_bounds_of_inband hband
  rw [f32Key_add_one hfin hsign] at hle
  omega

end

/-- Settles O15: what each write stores by definition, and what is in band by the order of the keys; an accepted band that
begins at +0.0 has its upper edge at or above both zeros. -/
theorem gainWritesAreBandOrDefault : Obligations.GainWritesAreBandOrDefault := by
  refine ⟨fun _ => ⟨rfl, rfl, rfl⟩, fun ig hig => ?_,
    fun d s => ⟨exec_wrKp_eq rfl rfl, exec_wrKi_eq rfl rfl, exec_wrKd_eq rfl rfl⟩, fun lo dflt hi d hband => ?_,
    fun s hs => ⟨exec_wrKp_eq hs (by decide), exec_wrKp_eq hs (by decide), exec_wrKi_eq hs (by decide),
      exec_wrKi_eq hs (by decide), exec_wrKd_eq hs (by decide), exec_wrKd_eq hs (by decide)⟩⟩
  · rw [f32Mul_comm, f32IsZero_iff]
    exact f32Mag_mul_of_zero (by decide) hig
  · obtain ⟨hlo, hhi, hflo, -, hfhi⟩ := (gainBandOk_iff lo dflt hi).1 hband
    refine ⟨inband_of_nan lo hi, inband_of_inf hflo hfhi, ?_, ?_, inband_add_one hfhi⟩
    · rintro rfl
      have hzero := f32Le_trans hlo hhi
      exact ⟨(inband_iff _ _ _).2 ⟨by decide, f32Le_trans (by decide) hzero⟩, (inband_iff _ _ _).2 ⟨by decide, hzero⟩⟩
    · rintro rfl hd hle
      exact (inband_iff _ _ _).2 ⟨zero_le_of_toNat_lt hd, hle⟩

/-! The registers that TICK and SAMPLE leave, and what the reads return (R166 to R179) -/

theorem pidCore_meas (p : Params) (r : Arch) (m : F32) : (pidCore p r m).meas = m := rfl

theorem pidCore_tickcnt (p : Params) (r : Arch) (m : F32) : (pidCore p r m).tickcnt = r.tickcnt + 1#32 := rfl

theorem tickOperation_meas (s : State) : (tickOperation s).arch.meas = scale s.params (adcResult s) := by
  rw [tickOperation_arch, pidCore_meas, sampleValue]

theorem tickOperation_adcraw (s : State) : (tickOperation s).arch.adcraw = adcResult s := by
  rw [tickOperation_arch, pidCore_adcraw]

theorem tickOperation_tickcnt (s : State) : (tickOperation s).arch.tickcnt = s.arch.tickcnt + 1#32 := by
  rw [tickOperation_arch, pidCore_tickcnt]

theorem eq_of_exec_tick {x : BitVec 28} {s t : State} (h : exec (.tick x) s = .next t) : t = tickOperation s := by
  rw [exec_tick] at h
  cases h
  rfl

/-- SAMPLE leaves the scaled conversion in SAMPV and the raw result in ADCRAW (R101, R102). -/
theorem arch_of_exec_sample {x : BitVec 28} {s t : State} (h : exec (.sample x) s = .next t) :
    t.arch = { s.arch with sampv := scale s.params (adcResult s), adcraw := adcResult s } := by
  rw [exec_sample] at h
  cases h
  exact withArch_arch _ _

theorem sampv_of_exec_sample {x : BitVec 28} {s t : State} (h : exec (.sample x) s = .next t) :
    t.arch.sampv = scale s.params (adcResult s) := by rw [arch_of_exec_sample h]

theorem adcraw_of_exec_sample {x : BitVec 28} {s t : State} (h : exec (.sample x) s = .next t) :
    t.arch.adcraw = adcResult s := by rw [arch_of_exec_sample h]

/-- The zero extension puts 16 zero bits above the register (R81). -/
theorem zext32_eq_append (h : Half) : zext32 h = 0#16 ++ h := BitVec.setWidth_eq_append (by decide)

/-- Settles O7: each read returns the register map's value, and TARGET of a safe state is in its band. -/
theorem settingReadsReturnSettings : Obligations.SettingReadsReturnSettings := by
  refine ⟨fun d s => ⟨exec_decodeRead 0x04#6 d s, exec_decodeRead 0x08#6 d s, exec_decodeRead 0x0C#6 d s,
    exec_decodeRead 0x10#6 d s, rfl, rfl, rfl, rfl⟩, fun s hp hs => ?_, rfl, rfl, rfl, rfl⟩
  obtain ⟨-, hset, -⟩ := (safeState_iff s).1 hs
  have hband := (inbandInt_iff _ _ _).1 hset.target
  rwa [hp] at hband

/-- Settles O8: each read returns the register map's value; the examples are Scale's values, the reset registers and the
scenario's first row. -/
theorem workingReadsReturnRegisters : Obligations.WorkingReadsReturnRegisters := by
  refine ⟨fun d s => ⟨exec_decodeRead 0x14#6 d s, exec_decodeRead 0x18#6 d s, exec_decodeRead 0x1C#6 d s,
    exec_decodeRead 0x20#6 d s, exec_decodeRead 0x24#6 d s, exec_decodeRead 0x28#6 d s, exec_decodeRead 0x30#6 d s⟩,
    fun _ => ⟨rfl, rfl, rfl, rfl, rfl, rfl, rfl⟩, fun s hs => ?_, fun x s t hp hraw h => ?_, fun x s t hp hraw h => ?_,
    rfl, rfl, rfl, rfl, ?_, ?_⟩
  · obtain ⟨-, -, hwork⟩ := (safeState_iff s).1 hs
    exact (beq_iff_eq.1 hwork.errors).symm
  · rw [eq_of_exec_tick h, tickOperation_meas, hp, hraw]
    decide
  · rw [sampv_of_exec_sample h, hp, hraw]
    decide
  · rw [pidCore_scenario1]
    rfl
  · rw [pidCore_scenario1]
    rfl

/-- Settles O9: each read returns the register map's value, and each TICK adds one to TICKCNT. -/
theorem narrowReadsAreZeroExtended : Obligations.NarrowReadsAreZeroExtended := by
  refine ⟨fun d s => ⟨?_, ?_, exec_decodeRead 0x38#6 d s, rfl, rfl, rfl⟩,
    fun x s t h => adcraw_of_exec_sample h, fun x s t hraw h => ?_, fun x s t h => ?_, by decide,
    fun x t u v ht hu hv => ?_⟩
  · rw [← zext32_eq_append]
    exact exec_decodeRead 0x2C#6 d s
  · rw [← zext32_eq_append]
    exact exec_decodeRead 0x34#6 d s
  · rw [adcraw_of_exec_sample h, hraw]
    decide
  · rw [eq_of_exec_tick h, tickOperation_adcraw]
  · rw [eq_of_exec_tick hv, eq_of_exec_tick hu, eq_of_exec_tick ht, tickOperation_tickcnt, tickOperation_tickcnt,
      tickOperation_tickcnt]
    rfl

end Sys2Proof.Machine
end

section
/-! PROOFS. The exceptions chapter's statements (60_exceptions.md): the order of the arbitration point, reset before a pending
tick before the waiting transactions (R205, R206), the merging of strobes (R204), the open order between hosts (R205, U8), and
that nothing traps (R200). First what a step is for each thing that can be granted, then the choice among hosts. -/

namespace Sys2Proof.Machine

/-! What a step is, by what arbitration grants (R205, R206) -/

/-- With reset asserted at the arbitration point a step is the arrivals and RESET (R206). -/
theorem step_of_reset_first {s : State} (hp : paramsWellFormed s.params = true) (hfirst : (slotOf s).reset = .first) :
    step s = .next (resetOperation (arrivals s)) := by
  rw [step, stepWith, if_pos hp, hfirst]
  rfl

/-- With reset low a step is the granted operation, with none of its effects lost (R60). -/
theorem step_of_low {s : State} (hp : paramsWellFormed s.params = true) (hlow : (slotOf s).reset = .low) :
    step s = perform exec (arbitrate .low (arrivals s)).1 (arbitrate .low (arrivals s)).2 := by
  rw [step, stepWith, if_pos hp, hlow]
  rfl

theorem arbitrate_low_tick {s : State} (ht : s.arch.tickPend = true) :
    arbitrate .low s = (.tick, withArch s { s.arch with tickPend := false }) := by
  simp [arbitrate, ht]

theorem arbitrate_low_idle {s : State} (ht : s.arch.tickPend = false) (hw : s.waiting = []) :
    arbitrate .low s = (.idle, s) := by
  simp [arbitrate, chooseHost, hostsOf, ht, hw]

theorem arbitrate_low_transaction {s s' : State} {h : Nat} {w : Txn} {rest : List (Nat × Txn)}
    (ht : s.arch.tickPend = false) (hc : chooseHost s = some (h, s')) (hf : takeFirst h s.waiting = some (w, rest)) :
    arbitrate .low s = (.transaction h w, { s' with waiting := rest, served := some h }) := by
  simp [arbitrate, ht, hc, hf]

/-- Without a strobe TICK_PEND stays as it was (R204). -/
theorem tickPend_arrivals_quiet {s : State} (hs : (slotOf s).strobes = 0) :
    (arrivals s).arch.tickPend = s.arch.tickPend := by rw [arrivals_quiet hs]

/-- A step depends on its slot only through what has arrived at the arbitration point and the reset pin. -/
theorem step_congr_arrivals {s s' : State} (ha : arrivals s = arrivals s') (hr : (slotOf s).reset = (slotOf s').reset) :
    step s = step s' := by
  have hp : s.params = s'.params := by rw [← arrivals_params s, ha, arrivals_params]
  rw [step, step, stepWith, stepWith, ha, hr, hp]

/-! The statements on reset, ticks and idle steps -/

/-- Settles O44: RESET replaces the registers that the arrivals left, the latch among them. -/
theorem resetGoesFirst : Obligations.ResetGoesFirst :=
  fun _ hp hfirst => step_of_reset_first hp hfirst

/-- Settles O47: the arrivals leave TICK_PEND set, so arbitration clears it and grants the TICK operation. -/
theorem pendingTickGoesFirst : Obligations.PendingTickGoesFirst := by
  intro x s hp hlow hpend
  have ht : (arrivals s).arch.tickPend = true := by simpa using hpend
  rw [step_of_low hp hlow, arbitrate_low_tick ht]
  rfl

/-- Settles O48: all the strobes of a slot leave in the arrivals is TICK_PEND. -/
theorem strobesMerge : Obligations.StrobesMerge := by
  refine fun s n subs pin rest => ⟨step_congr_arrivals ?_ rfl, fun hpend => step_congr_arrivals ?_ rfl⟩
  · simp [arrivals, slotOf]
  · simp [arrivals, slotOf, hpend]

/-- Settles O49: nothing is granted, and quiet arrivals without a transaction touch only the record of the ports. -/
theorem idleStepChangesNoRegister : Obligations.IdleStepChangesNoRegister := by
  intro s hp hlow ht hs hw hsub
  have hquiet := (tickPend_arrivals_quiet hs).trans ht
  have hempty : (arrivals s).waiting = [] := by simp [hw, hsub]
  rw [step_of_low hp hlow, arbitrate_low_idle hquiet hempty, arrivals_quiet hs, hsub, List.append_nil]
  rfl

/-- Settles O53: every instruction has one of the listed effects, a step runs what was granted to its end, and neither
arbitration nor the operation nor a reset writes the parameter set. -/
theorem nothingTraps : Obligations.NothingTraps := by
  constructor
  · intro i s
    obtain ⟨t, ht, -⟩ := exec_cases i s
    exact ⟨t, ht⟩
  · intro s hp
    obtain ⟨u, hran, hstep⟩ := step_cases hp
    obtain ⟨hran_params, -, -⟩ := hran.env
    obtain ⟨harb_params, -⟩ := arbitrate_frame (slotOf s).reset (arrivals s)
    have hu : u.params = s.params := by rw [hran_params, harb_params, arrivals_params]
    refine ⟨_, hstep, ?_⟩
    split
    · rw [aborted_params, hu]
    · exact hu

/-! The choice among the hosts that wait (R205, U8) -/

/-- A choice number that is h's place among the hosts that wait has the arbiter choose h, and it is used up unless h has the
whole queue (log entry 4). -/
theorem chooseHost_of_choice {s : State} {h n : Nat} {ns : List Nat} (ho : s.orderIn = n :: ns)
    (hn : (hostsOf s.waiting)[n]? = some h) :
    chooseHost s = some (h, { s with orderIn := if ∀ e ∈ s.waiting, e.1 = h then s.orderIn else ns }) := by
  obtain ⟨hlt, hget⟩ := List.getElem?_eq_some_iff.1 hn
  have hmem : h ∈ hostsOf s.waiting := List.mem_of_getElem? hn
  by_cases hall : ∀ e ∈ s.waiting, e.1 = h
  · obtain ⟨w, hw⟩ := mem_hostsOf.1 hmem
    rw [if_pos hall, chooseHost, hostsOf_single (List.ne_nil_of_mem hw) hall]
  · rw [if_neg hall, chooseHost]
    split
    case h_1 hnone =>
      rw [hnone] at hmem
      exact absurd hmem List.not_mem_nil
    case h_2 h' hone =>
      have honly : ∀ x ∈ hostsOf s.waiting, x = h := by
        rw [hone] at hmem ⊢
        simp [List.mem_singleton.1 hmem]
      exact absurd (fun e (he : e ∈ s.waiting) => honly e.1 (mem_hostsOf.2 ⟨e.2, he⟩)) hall
    case h_3 h0 h1 hs hseveral =>
      have hmod : n % (hs.length + 2) = n := Nat.mod_eq_of_lt (by rwa [hseveral] at hlt)
      rw [orderChoice, orderTaken, ho, hmod, ← hseveral, List.getD_eq_getElem _ _ hlt, hget]

/-- With a choice number that is h's place among the hosts that wait, a step without tick or reset is exec of h's first
transaction w, whose entry leaves the queue (R205, R63). -/
theorem step_of_choice {s : State} {h n : Nat} {ns : List Nat} {w : Txn} {rest : List (Nat × Txn)}
    (hp : paramsWellFormed s.params = true) (hlow : (slotOf s).reset = .low) (ht : s.arch.tickPend = false)
    (hs : (slotOf s).strobes = 0) (ho : s.orderIn = n :: ns)
    (hn : (hostsOf (s.waiting ++ (slotOf s).submits))[n]? = some h)
    (hf : takeFirst h (s.waiting ++ (slotOf s).submits) = some (w, rest)) :
    step s = exec (decode w) { s with
      waiting := rest
      inputs := s.inputs.tail
      orderIn := if ∀ e ∈ s.waiting ++ (slotOf s).submits, e.1 = h then s.orderIn else ns
      rdata := none
      served := some h } := by
  have hquiet := (tickPend_arrivals_quiet hs).trans ht
  have hchoice := chooseHost_of_choice (s := arrivals s) ho hn
  rw [step_of_transaction hp hlow (arbitrate_low_transaction hquiet hchoice hf), arrivals_quiet hs]

/-- Settles O50: the choice number is the host's place among the hosts that wait. -/
theorem anyWaitingHostMayBeNext : Obligations.AnyWaitingHostMayBeNext := by
  intro s h hp hlow ht hs hmem
  obtain ⟨n, hn⟩ := List.mem_iff_getElem?.1 hmem
  obtain ⟨w, rest, hfirst, -, hqueue, -⟩ := takeFirst_spec hmem
  obtain ⟨pre, post, hsplit, rfl, hpre⟩ := takeFirst_append hfirst
  have hstep := step_of_choice (s := { s with orderIn := n :: s.orderIn }) hp hlow ht hs rfl hn hfirst
  obtain ⟨t, hexec, -⟩ := exec_cases (decode w) _
  obtain ⟨-, hwaiting, -, -, hserved⟩ := exec_env hexec
  refine ⟨n, t, w, pre, post, hsplit, hpre, hstep.trans hexec, hexec, hserved, ?_⟩
  rw [hwaiting]
  exact hqueue

end Sys2Proof.Machine
end

section
/-! PROOFS. The reset and hazards chapter's statements (70_reset_and_hazards.md): the values RESET gives (R230), that they are
safe (R231), reset during an operation (R232), and a read directly after a transaction of the same host (R240). First what
RESET and the reset state are; then what a step is when reset falls into it; last what a step does when nothing arrives. -/

namespace Sys2Proof.Machine

/-! RESET and the reset state (R230, R231) -/

/-- BCPID-1 is an accepted parameter set (R4). -/
theorem paramsWellFormed_reset : paramsWellFormed State.reset.params = true := by
  obtain ⟨-, hbcpid1, -⟩ := parameterSetsAccepted
  exact hbcpid1

/-- The reset value of PWM is PwmValue of DUTY's, which an accepted duty band holds (R230, R4). -/
theorem pwmValue_dutyInit {p : Params} (hp : paramsWellFormed p = true) :
    pwmValue p p.dutyInit = some ((resetArch p).pwm.toNat : Int) :=
  have hduty := (bandsOk_of_paramsWellFormed hp).duty
  pwmValue_of_inband hduty (dutyInit_inband hduty)

/-- Settles O41: RESET replaces the registers by the listed ones, which BCPID-1's parameters give the listed values. -/
theorem resetGivesTheListedValues : Obligations.ResetGivesTheListedValues := by
  refine ⟨fun _ => rfl, fun s hp => ?_, by decide⟩
  rw [resetOperation_arch]
  exact pwmValue_dutyInit hp

/-- Settles O42: BCPID-1 is an accepted parameter set, and the reset state has its reset registers. -/
theorem resetStateIsSafe : Obligations.ResetStateIsSafe := safeState_of_resetArch paramsWellFormed_reset rfl

/-- Settles O43: RESET leaves the reset registers of the parameter set, and keeps that set. -/
theorem resetOperationIsSafe : Obligations.ResetOperationIsSafe :=
  fun s hp => safeState_of_resetArch hp (resetOperation_arch s)

/-! Reset during an operation (R232) -/

/-- With reset asserted during the operation, a step is what reset leaves of a state with the step's parameter set. -/
theorem step_of_reset_during {s : State} (hp : paramsWellFormed s.params = true)
    (hduring : (slotOf s).reset = .during) : ∃ g u, step s = .next (aborted g u) ∧ u.params = s.params := by
  obtain ⟨u, hran, hstep⟩ := step_cases hp
  obtain ⟨hran_params, -, -⟩ := hran.env
  obtain ⟨harb_params, -⟩ := arbitrate_frame (slotOf s).reset (arrivals s)
  rw [if_pos hduring] at hstep
  exact ⟨_, u, hstep, by rw [hran_params, harb_params, arrivals_params]⟩

/-- Settles O45: whatever the operation left, reset replaces every register by its reset value. -/
theorem resetDuringAnOperation : Obligations.ResetDuringAnOperation := by
  intro s hp hduring
  obtain ⟨g, u, hstep, hu⟩ := step_of_reset_during hp hduring
  exact ⟨aborted g u, hstep, by rw [aborted_arch, hu], by rw [aborted_params, hu]⟩

/-! A read directly after a transaction of the same host (R240) -/

/-- When the inputs are used up, nothing arrives and reset stays low. -/
theorem slotOf_no_inputs {s : State} (hin : s.inputs = []) : slotOf s = quietSlot := by
  rw [slotOf, hin, List.headD_nil]

/-- When nothing arrives and no tick is pending, a step is exec of the first transaction of the one host that waits. -/
theorem step_one_host_no_inputs {s : State} {h : Nat} {w : Txn} {rest : List (Nat × Txn)}
    (hp : paramsWellFormed s.params = true) (hin : s.inputs = []) (ht : s.arch.tickPend = false)
    (hw : s.waiting = (h, w) :: rest) (hall : ∀ e ∈ rest, e.1 = h) :
    step s = exec (decode w) { s with waiting := rest, rdata := none, served := some h } := by
  have hslot := slotOf_no_inputs hin
  have hqueue : s.waiting ++ (slotOf s).submits = (h, w) :: rest := by
    rw [hslot, hw]
    exact List.append_nil _
  obtain ⟨-, hstep⟩ := stepRunsTheDecodedTransaction.1 s h w rest _ hp (by rw [hslot]; rfl) ht (by rw [hslot]; rfl)
    hqueue hall rfl
  rw [hstep, hin, List.tail_nil, ← hin]

/-- No instruction changes TICK_PEND (R40). -/
theorem exec_tickPend {i : Instr} {s t : State} (h : exec i s = .next t) : t.arch.tickPend = s.arch.tickPend := by
  cases exec_next h with
  | sample | tick => simp
  | wrTarget | wrKp | wrKi | wrKd | read | nothing => rfl

/-- Settles O57: the first step leaves the read alone in the queue, still with no tick pending and nothing to arrive, and the
second answers from the registers it finds. -/
theorem readSeesThePrecedingTransaction : Obligations.ReadSeesThePrecedingTransaction := by
  intro s h w a d hp hin ht hw
  have hfirst := step_one_host_no_inputs hp hin ht hw (by simp)
  obtain ⟨t, hexec, -⟩ := exec_cases (decode w)
    { s with waiting := [(h, mkTxn false a d)], rdata := none, served := some h }
  obtain ⟨hparams, hwaiting, hinputs, -, -⟩ := exec_env hexec
  have hsecond := step_one_host_no_inputs (by rwa [hparams]) (hinputs.trans hin) ((exec_tickPend hexec).trans ht)
    hwaiting (by simp)
  rw [exec_read] at hsecond
  exact ⟨t, _, hfirst.trans hexec, hexec, hsecond, respond_rdata _ _, rfl⟩

end Sys2Proof.Machine
end
